-- ==== Sys2Proof/Word.lean ====
section
/-! DEFINITION. The block's elementary data: bytes, buffers, samples and decoded frames
(00_scope.md R6, R7; 10_state.md R14, R20). -/

namespace Sys2Proof

/-- A byte, bit 7 its most significant bit (R6). -/
abbrev Byte := BitVec 8

/-- A buffer: a finite byte sequence delivered whole, its length the length of the list (R9, R31). -/
abbrev Buffer := List Byte

/-- A decoded sample as it enters the repacker: the 32-bit pattern of an `s32` (R5, R7). -/
abbrev Sample := BitVec 32

/-- A DecodedFrame: one sequence of samples per channel (R20). -/
abbrev Frame := List (List Sample)

end Sys2Proof
end

