-- ==== Sys2Proof/Config.lean ====
section
/-! DEFINITION. What an implementation of the block fixes and the spec leaves open
(00_scope.md R5, 70_reset_and_hazards.md R261): the types of the parameters, and one opaque constant
for each open value. No value of an opaque constant can be proved. -/

namespace Sys2Proof

/-- OUT_ENDIAN (20_memory.md R35). -/
inductive Endian
  | little
  | big
  deriving DecidableEq, Repr, Inhabited

/-- The eleven speaker-position labels, in the source's order (10_state.md R17). -/
inductive Position
  | mono
  | frontLeft
  | frontCenter
  | frontRight
  | rearLeft
  | rearRight
  | sideLeft
  | sideRight
  | rearCenter
  | lowFrequencyEffects
  | invalid
  deriving DecidableEq, Repr, Inhabited

/-- One row of LAYOUT (R18). -/
abbrev LayoutRow := Vector Position 8

/-- LAYOUT: 8 rows of 8 entries, row index `channel_count - 1` (R18, 41_channel_layout.md R101). -/
abbrev LayoutTable := Vector LayoutRow 8

/-- What the spec requires of LAYOUT: an entry is Invalid exactly where its index is past the row's
channel count (R102), and the two-channel row begins FrontLeft, FrontRight (R103). -/
abbrev LayoutTable.Ok (t : LayoutTable) : Prop :=
  (∀ r k : Fin 8, t[r][k] = Position.invalid ↔ r < k) ∧
    t[(1 : Fin 8)][(0 : Fin 8)] = Position.frontLeft ∧
    t[(1 : Fin 8)][(1 : Fin 8)] = Position.frontRight

/-- Which codes past 0 stand for a value of DETAIL (R5, OPEN; log 6). -/
opaque Config.isDetail : Nat → Bool

/-- A value of DETAIL, the open type of what a FrameDecodeError carries (R5, OPEN). Which values there
are is the opaque `Config.isDetail`: one value, any finite number, or no end of them. The code names a
value and says nothing of it; no operation reads it (log 6). -/
structure Detail where
  code : Nat
  admitted : code = 0 ∨ Config.isDetail code = true
  deriving DecidableEq, Repr

/-- An answer of the decode primitive `P` (44_frame_decoder.md R141). -/
inductive PrimAnswer
  | noFrame
  | fail (detail : Detail)
  | frame (arrays : Frame) (consumed : Nat)
  deriving DecidableEq, Repr, Inhabited

/-- One answer of `P` that a run fixes (log 5). -/
structure PrimEntry where
  buf : Buffer
  channels : Nat
  answer : PrimAnswer
  deriving DecidableEq, Repr

/-- The parameters of the block (R5, R190). `primTable` is the finite part of `P` a run fixes; on
every other argument `P` is the opaque `Config.primitive` (log 5). -/
structure Params where
  marker : Vector Byte 4
  identTag : Vector Byte 8
  layout : LayoutTable
  outEndian : Endian
  primTable : List PrimEntry
  deriving DecidableEq, Repr

/-- MARKER (R5, OPEN). -/
opaque Config.marker : Vector Byte 4

/-- IDENT_TAG (R5, OPEN). -/
opaque Config.identTag : Vector Byte 8

/-- OUT_ENDIAN (R5, OPEN). -/
opaque Config.outEndian : Endian

/-- The entry of LAYOUT at a row and an index, as one of the ten labels other than Invalid; read only
where R102 asks for such a label and R103 does not fix it (R5, OPEN; log 22). -/
opaque Config.layoutEntry : Nat → Nat → Fin 10

/-- The decode primitive `P`, a total function of the buffer and the channel count (R141, OPEN). -/
opaque Config.primitive : Buffer → Nat → PrimAnswer

/-- The ten labels other than Invalid, in R17's order. -/
def Position.ofIndex : Fin 10 → Position
  | 0 => .mono
  | 1 => .frontLeft
  | 2 => .frontCenter
  | 3 => .frontRight
  | 4 => .rearLeft
  | 5 => .rearRight
  | 6 => .sideLeft
  | 7 => .sideRight
  | 8 => .rearCenter
  | 9 => .lowFrequencyEffects

/-- An entry of `Config.layout`: Invalid past the row's channel count (R102), the two labels of R103,
and open elsewhere. -/
def Config.layoutAt (row k : Nat) : Position :=
  if row < k then .invalid
  else if row = 1 then (if k = 0 then .frontLeft else .frontRight)
  else .ofIndex (Config.layoutEntry row k)

/-- One row of `Config.layout`. -/
def Config.layoutRow (row : Nat) : LayoutRow :=
  #v[Config.layoutAt row 0, Config.layoutAt row 1, Config.layoutAt row 2, Config.layoutAt row 3,
    Config.layoutAt row 4, Config.layoutAt row 5, Config.layoutAt row 6, Config.layoutAt row 7]

/-- LAYOUT, open but for what R101 to R103 fix (log 22). -/
def Config.layout : LayoutTable :=
  #v[Config.layoutRow 0, Config.layoutRow 1, Config.layoutRow 2, Config.layoutRow 3,
    Config.layoutRow 4, Config.layoutRow 5, Config.layoutRow 6, Config.layoutRow 7]

/-- The parameters of the block with nothing fixed that the spec leaves open (log 4). -/
def Config.params : Params :=
  { marker := Config.marker, identTag := Config.identTag, layout := Config.layout,
    outEndian := Config.outEndian, primTable := [] }

end Sys2Proof
end

