-- ==== Sys2Proof/Syntax.lean ====
section
/-! DEFINITION. The operations of the block, one constructor per row of spec/opcode_table.json, and
the raw form in which an operation reaches it. -/

namespace Sys2Proof

/-- The four container formats (10_state.md R16, 30_encoding.md R64). -/
inductive SampleFormat
  | s8
  | s16
  | s24in32
  | s32
  deriving DecidableEq, Repr

/-- StreamDescriptor with the field widths of 10_state.md R14. A value carries no validity
guarantee. -/
structure StreamDescriptor where
  sampleRate : BitVec 20
  channelCount : BitVec 4
  bitsPerSample : BitVec 6
  deriving DecidableEq, Repr

/-- The nineteen rows of the operation table with their operands. -/
inductive Instr
  /-- `START` (R191). -/
  | start
  /-- `STOP` (R192). -/
  | stop
  /-- `PUSH in` (R193). -/
  | push (b : Buffer)
  /-- `HEADERS hdrs` (R198). -/
  | headers (hdrs : List Buffer)
  /-- The route of a StreamMarker buffer (R123, R128). -/
  | classStreamMarker (b : Buffer)
  /-- The route of a MetadataHeader buffer (R124, R128, R194). -/
  | classMetadataHeader (b : Buffer)
  /-- The route of an AudioFrame buffer (R125, R128, R195). -/
  | classAudioFrame (b : Buffer)
  /-- The route of an OtherMetadataHeader buffer (R126, R128). -/
  | classOtherMetadataHeader (b : Buffer)
  /-- `CLASSIFY in` (R121). -/
  | classify (b : Buffer)
  /-- `PARSE_STREAMINFO in` (R81). -/
  | parseStreamInfo (b : Buffer)
  /-- `LAYOUT_LOOKUP n` (R100). -/
  | layoutLookup (n : BitVec 4)
  /-- `RESOLVE_FORMAT d` (R111). -/
  | resolveFormat (d : StreamDescriptor)
  /-- `DECODE_FRAME in` (R142). -/
  | decodeFrame (b : Buffer)
  /-- `INTERLEAVE F` (R161). -/
  | interleave (f : Frame)
  /-- `NARROW.<fmt> V` (R163). -/
  | narrow (fmt : SampleFormat) (v : List Sample)
  /-- `REPACK.S8 F` (R168). -/
  | repackS8 (f : Frame)
  /-- `REPACK.S16 F` (R169). -/
  | repackS16 (f : Frame)
  /-- `REPACK.S24_32 F` (R170). -/
  | repackS24in32 (f : Frame)
  /-- `REPACK.S32 F` (R171). -/
  | repackS32 (f : Frame)
  deriving DecidableEq, Repr

/-- The raw form of an operation at the block's interface. The length of every buffer comes with the
buffer (20_memory.md R31). -/
inductive Packet
  /-- A host command: its 2-bit code and its buffers (30_encoding.md R62). -/
  | command (code : BitVec 2) (bufs : List Buffer)
  /-- A bare buffer at the class decoder: its leading bytes select the row (R50, R54; log 8). -/
  | buffer (b : Buffer)
  /-- A test bench's direct invocation of an internal operation (R4). The spec gives it no encoding:
  code and operand layout are the model's (log 2, DESIGN CHOICE). -/
  | bench (code : Byte) (bufs : List Buffer)
  deriving DecidableEq, Repr

end Sys2Proof
end

