-- ==== Sys2Proof/WellFormed.lean ====
section
/-! DEFINITION. Which operations the spec admits with which operands. The class rows carry a buffer of
their class, by the table of 30_encoding.md R54. -/

namespace Sys2Proof

/-- The condition of R54's row 1. -/
def Buffer.isMarker (marker : Vector Byte 4) (b : Buffer) : Bool := b == marker.toList

/-- The condition of R54's row 2 on byte 0: the low 7 bits are 0 (R52). -/
def Buffer.isTypeZero (b : Buffer) : Bool :=
  match b with
  | [] => false
  | b0 :: _ => b0.extractLsb' 0 7 == 0#7

/-- The condition of R54's row 3 on bytes 0 and 1: `0xFF`, then high 6 bits `0b111110` (R53). -/
def Buffer.isSync (b : Buffer) : Bool :=
  match b with
  | b0 :: b1 :: _ => b0 == 0xFF#8 && b1.extractLsb' 2 6 == 0b111110#6
  | _ => false

/-- A buffer that lacks a byte a class rule needs: empty, or the single byte `0xFF` (R122). -/
def Buffer.isTooShort (b : Buffer) : Bool := b == [] || b == [0xFF#8]

/-- A frame the repacker's operations are defined on: at least one array, all of one length (R161,
R176). -/
def Frame.isRectangular (f : Frame) : Bool :=
  match f with
  | [] => false
  | a :: rest => rest.all fun x => x.length == a.length

/-- The operands the spec admits (R54, R100, R142, R161, R174). A DECODE_FRAME's buffer is asked for the
pattern alone, as the table has it, so a MARKER with that pattern is admitted (log 29). -/
def Instr.wellFormed (marker : Vector Byte 4) : Instr → Bool
  | .start => true
  | .stop => true
  | .push _ => true
  | .headers _ => true
  | .classStreamMarker b => Buffer.isMarker marker b
  | .classMetadataHeader b => !Buffer.isMarker marker b && Buffer.isTypeZero b
  | .classAudioFrame b => !Buffer.isMarker marker b && Buffer.isSync b
  | .classOtherMetadataHeader b =>
    !Buffer.isMarker marker b && !Buffer.isTypeZero b && !Buffer.isSync b && !Buffer.isTooShort b
  | .classify _ => true
  | .parseStreamInfo _ => true
  | .layoutLookup n => decide (1 ≤ n.toNat ∧ n.toNat ≤ 8)
  | .resolveFormat _ => true
  | .decodeFrame b => Buffer.isSync b
  | .interleave f => Frame.isRectangular f && decide (f.length ≤ 8)
  | .narrow _ _ => true
  | .repackS8 f => Frame.isRectangular f && decide (f.length ≤ 8)
  | .repackS16 f => Frame.isRectangular f && decide (f.length ≤ 8)
  | .repackS24in32 f => Frame.isRectangular f && decide (f.length ≤ 8)
  | .repackS32 f => Frame.isRectangular f && decide (f.length ≤ 8)

end Sys2Proof
end

