-- ==== Sys2Proof/Decode.lean ====
section
/-! DEFINITION. From a raw packet to an operation, and back.

Host commands: 30_encoding.md R62. Bare buffers: the priority table R54, read as R50 says ("CLASSIFY
is the decoder"). Internal operations invoked on their own have no encoding in the spec; theirs is the
model's: the row's index in spec/opcode_table.json as the code, then the operands as buffers
(log 2, DESIGN CHOICE). -/

namespace Sys2Proof

/-- Why a packet is no operation. -/
inductive Reject
  /-- A host command with a number of buffers it does not take (R62). -/
  | commandOperands
  /-- A bare buffer that lacks a byte a class rule needs (R122). -/
  | shortBuffer
  /-- A test bench code that names no internal operation. -/
  | benchCode
  /-- Operands of an internal operation that are not in the model's layout. -/
  | benchOperands
  deriving DecidableEq, Repr

/-! ## Operand layouts -/

/-- A sample as four bytes, the most significant first (as R32 has input fields). -/
def sampleBytes (v : Sample) : Buffer :=
  [v.extractLsb' 24 8, v.extractLsb' 16 8, v.extractLsb' 8 8, v.extractLsb' 0 8]

/-- A sequence of samples as bytes. -/
def encodeSamples : List Sample → Buffer
  | [] => []
  | v :: rest => sampleBytes v ++ encodeSamples rest

/-- The inverse of `encodeSamples`; none where bytes are left over. -/
def decodeSamples : Buffer → Option (List Sample)
  | [] => some []
  | b0 :: b1 :: b2 :: b3 :: rest => (decodeSamples rest).map fun t => (b0 ++ b1 ++ b2 ++ b3) :: t
  | _ => none

/-- One buffer per channel. -/
def encodeFrame (f : Frame) : List Buffer := f.map encodeSamples

/-- The inverse of `encodeFrame`. -/
def decodeFrameOperand : List Buffer → Option Frame
  | [] => some []
  | b :: rest =>
    match decodeSamples b, decodeFrameOperand rest with
    | some a, some t => some (a :: t)
    | _, _ => none

/-- The bits of a descriptor as 10_state.md R22 places them in DESC. -/
def StreamDescriptor.bits (d : StreamDescriptor) : BitVec 30 :=
  d.bitsPerSample ++ d.channelCount ++ d.sampleRate

/-- The descriptor whose bits are `w`. -/
def StreamDescriptor.ofBits (w : BitVec 30) : StreamDescriptor :=
  { sampleRate := w.extractLsb' 0 20, channelCount := w.extractLsb' 20 4,
    bitsPerSample := w.extractLsb' 24 6 }

/-- A format tag's code (30_encoding.md R64). -/
def SampleFormat.code : SampleFormat → BitVec 2
  | .s8 => 0
  | .s16 => 1
  | .s24in32 => 2
  | .s32 => 3

/-- The format tag of a code byte (R64). -/
def SampleFormat.ofCode (b : Byte) : Option SampleFormat :=
  if b = 0#8 then some .s8
  else if b = 1#8 then some .s16
  else if b = 2#8 then some .s24in32
  else if b = 3#8 then some .s32
  else none

/-! ## The decoder -/

/-- A host command by its code (R62). START and STOP take no buffer, PUSH takes one. -/
def decodeCommand (code : BitVec 2) (bufs : List Buffer) : Except Reject Instr :=
  if code = 0#2 then (if bufs = [] then .ok .start else .error .commandOperands)
  else if code = 1#2 then (if bufs = [] then .ok .stop else .error .commandOperands)
  else if code = 2#2 then
    match bufs with
    | [b] => .ok (.push b)
    | _ => .error .commandOperands
  else .ok (.headers bufs)

/-- A bare buffer by its leading bytes, the patterns of R54 in their priority order. -/
def decodeBuffer (marker : Vector Byte 4) (b : Buffer) : Except Reject Instr :=
  if b.length = 4 ∧ b = marker.toList then .ok (.classStreamMarker b)
  else
    match b with
    | [] => .error .shortBuffer
    | b0 :: rest =>
      if b0 &&& 0x7F#8 = 0#8 then .ok (.classMetadataHeader b)
      else if b0 = 0xFF#8 then
        match rest with
        | [] => .error .shortBuffer
        | b1 :: _ =>
          if b1 &&& 0xFC#8 = 0xF8#8 then .ok (.classAudioFrame b)
          else .ok (.classOtherMetadataHeader b)
      else .ok (.classOtherMetadataHeader b)

/-- An operation whose operand is one buffer. -/
def decodeOneBuffer (f : Buffer → Instr) (bufs : List Buffer) : Except Reject Instr :=
  match bufs with
  | [b] => .ok (f b)
  | _ => .error .benchOperands

/-- An operation whose operand is a frame. -/
def decodeOneFrame (g : Frame → Instr) (bufs : List Buffer) : Except Reject Instr :=
  match decodeFrameOperand bufs with
  | some f => .ok (g f)
  | none => .error .benchOperands

/-- LAYOUT_LOOKUP's operand: one byte, the count in its low half, the high half 0. -/
def decodeLookup (bufs : List Buffer) : Except Reject Instr :=
  match bufs with
  | [[n]] =>
    if n.extractLsb' 4 4 = 0#4 then .ok (.layoutLookup (n.extractLsb' 0 4))
    else .error .benchOperands
  | _ => .error .benchOperands

/-- RESOLVE_FORMAT's operand: DESC's 30 bits in four bytes, the two bits above them 0. -/
def decodeResolve (bufs : List Buffer) : Except Reject Instr :=
  match bufs with
  | [[b0, b1, b2, b3]] =>
    let w : BitVec 32 := b0 ++ b1 ++ b2 ++ b3
    if w.extractLsb' 30 2 = 0#2 then
      .ok (.resolveFormat (StreamDescriptor.ofBits (w.extractLsb' 0 30)))
    else .error .benchOperands
  | _ => .error .benchOperands

/-- NARROW's operands: a byte with the suffix's code, then the samples. -/
def decodeNarrow (bufs : List Buffer) : Except Reject Instr :=
  match bufs with
  | [[c], v] =>
    match SampleFormat.ofCode c, decodeSamples v with
    | some fmt, some vs => .ok (.narrow fmt vs)
    | _, _ => .error .benchOperands
  | _ => .error .benchOperands

/-- An internal operation by its code: its row's index in spec/opcode_table.json. -/
def decodeBench (code : Byte) (bufs : List Buffer) : Except Reject Instr :=
  if code = 8#8 then decodeOneBuffer .classify bufs
  else if code = 9#8 then decodeOneBuffer .parseStreamInfo bufs
  else if code = 10#8 then decodeLookup bufs
  else if code = 11#8 then decodeResolve bufs
  else if code = 12#8 then decodeOneBuffer .decodeFrame bufs
  else if code = 13#8 then decodeOneFrame .interleave bufs
  else if code = 14#8 then decodeNarrow bufs
  else if code = 15#8 then decodeOneFrame .repackS8 bufs
  else if code = 16#8 then decodeOneFrame .repackS16 bufs
  else if code = 17#8 then decodeOneFrame .repackS24in32 bufs
  else if code = 18#8 then decodeOneFrame .repackS32 bufs
  else .error .benchCode

/-- The decoder: total on packets. -/
def decode (marker : Vector Byte 4) : Packet → Except Reject Instr
  | .command code bufs => decodeCommand code bufs
  | .buffer b => decodeBuffer marker b
  | .bench code bufs => decodeBench code bufs

/-! ## The encoder -/

/-- The packet of an operation. -/
def encode : Instr → Packet
  | .start => .command 0#2 []
  | .stop => .command 1#2 []
  | .push b => .command 2#2 [b]
  | .headers hdrs => .command 3#2 hdrs
  | .classStreamMarker b => .buffer b
  | .classMetadataHeader b => .buffer b
  | .classAudioFrame b => .buffer b
  | .classOtherMetadataHeader b => .buffer b
  | .classify b => .bench 8#8 [b]
  | .parseStreamInfo b => .bench 9#8 [b]
  | .layoutLookup n => .bench 10#8 [[0#4 ++ n]]
  | .resolveFormat d => .bench 11#8 [sampleBytes (0#2 ++ d.bits)]
  | .decodeFrame b => .bench 12#8 [b]
  | .interleave f => .bench 13#8 (encodeFrame f)
  | .narrow fmt v => .bench 14#8 [[0#6 ++ fmt.code], encodeSamples v]
  | .repackS8 f => .bench 15#8 (encodeFrame f)
  | .repackS16 f => .bench 16#8 (encodeFrame f)
  | .repackS24in32 f => .bench 17#8 (encodeFrame f)
  | .repackS32 f => .bench 18#8 (encodeFrame f)

/-! ## The rows of the table as numbers (log 9) -/

/-- The `k` bytes of `w`, the most significant first: the table writes a buffer-class row as
`in[0] ++ in[1] ++ ..`. -/
def bytesOfNat : Nat → Nat → Buffer
  | 0, _ => []
  | k + 1, w => BitVec.ofNat 8 (w / 2 ^ (8 * k)) :: bytesOfNat k w

/-- The MARKER with which the table writes its CLASS.StreamMarker row. -/
def tableMarker : Vector Byte 4 := #v[0x66#8, 0x4C#8, 0x61#8, 0x43#8]

/-- The packet a table row's word stands for. A word of one byte below 4 is a command code, with the
operands of zeros a PUSH needs: one empty buffer. Every other word is a buffer's bytes. -/
def packetOfTableWord (nbits w : Nat) : Packet :=
  if nbits ≤ 8 ∧ w < 4 then .command (BitVec.ofNat 2 w) (if w = 2 then [[]] else [])
  else .buffer (bytesOfNat ((nbits + 7) / 8) w)

/-- The operation the decoder reads from a table row's word. -/
def decodeTableWord (nbits w : Nat) : Option Instr :=
  match decode tableMarker (packetOfTableWord nbits w) with
  | .ok i => some i
  | .error _ => none

end Sys2Proof
end

