-- ==== Sys2Proof/Machine/State.lean ====
section
/-! DEFINITION. The block's state, the record of a transaction's answer, and the reasons the model
stops. -/

namespace Sys2Proof.Machine

/-- The four buffer classes (43_frame_classifier.md R120). -/
inductive BufClass
  | streamMarker
  | metadataHeader
  | audioFrame
  | otherMetadataHeader
  deriving DecidableEq, Repr

/-- The fatal reasons (10_state.md R19, 60_exceptions.md R224). -/
inductive AbortReason
  | lengthMismatch
  | channelRange
  | widthRange
  | frameShape
  | shortBuffer
  deriving DecidableEq, Repr

/-- The errors of the taxonomy (60_exceptions.md R221). The detail of FrameDecodeError stands beside
its name, as in R63. -/
inductive ErrorName
  | malformedStreamInfo
  | trailingOrTruncatedData
  | unsupportedSampleWidth
  | unsupportedChannelCount
  | notNegotiated
  | frameDecodeError
  deriving DecidableEq, Repr

/-- The three grades (R222). -/
inductive Severity
  | recoverable
  | sessionFatal
  | aborting
  deriving DecidableEq, Repr

/-- A response's status (30_encoding.md R63). -/
inductive Status
  | okNoOutput
  | okOutput
  | error
  | abort
  | noSession
  deriving DecidableEq, Repr

/-- The constant member of an OutputFormat (10_state.md R16). -/
inductive Interleaving
  | interleaved
  deriving DecidableEq, Repr

/-- OutputFormat (10_state.md R16). -/
structure OutputFormat where
  sampleFormat : SampleFormat
  sampleRate : BitVec 20
  channelCount : BitVec 4
  interleaved : Interleaving
  channelLayout : List Position
  deriving DecidableEq, Repr

/-- An event of a response (46_session_commands.md R196). -/
inductive Event
  | negotiate (f : OutputFormat)
  deriving DecidableEq, Repr

/-- The response record of a host command (30_encoding.md R63); `none` is "absent". -/
structure Response where
  status : Status
  cls : Option BufClass
  error : Option ErrorName
  severity : Option Severity
  abortReason : Option AbortReason
  detail : Option Detail
  consumed : Nat
  out : Option Buffer
  events : List Event
  deriving DecidableEq, Repr

/-- The result of an internal operation invoked on its own, in the forms of 30_encoding.md R67. -/
inductive OpResult
  | cls (c : BufClass)
  | descriptor (d : StreamDescriptor)
  | layout (ps : List Position)
  | format (f : OutputFormat)
  | frame (f : Frame)
  | noOutput
  | samples (v : List Sample)
  | bytes (b : Buffer)
  | error (e : ErrorName) (detail : Option Detail)
  | abort (a : AbortReason)
  deriving DecidableEq, Repr

/-- What a transaction answers (log 3). -/
inductive Answer
  | response (r : Response)
  | result (r : OpResult)
  deriving DecidableEq, Repr

/-- The state. The first four fields are the spec's record S (10_state.md R10). `params` are the
spec's parameters, which no step writes (R5, R261; log 4). `pending` and `answer` are the model's
interface to the host and a test bench (logs 1, 3). -/
structure State where
  session : Bool
  aborted : Option AbortReason
  desc : Option StreamDescriptor
  fmt : Option OutputFormat
  params : Params
  pending : List Packet
  answer : Option Answer
  deriving DecidableEq, Repr

/-- Right after reset (10_state.md R27, the spec's decision D27; log 15): Idle and empty, the open
parameters free (log 4), no command outstanding and nothing answered. -/
def State.reset : State :=
  { session := false, aborted := none, desc := none, fmt := none, params := Config.params,
    pending := [], answer := none }

/-- Why the machine stops with a fault. -/
inductive Fault
  /-- DECODE_FRAME, and PUSH and CLASS.AudioFrame through it, in a state with a format and no
  descriptor, which the invariant R13 item 2 excludes: R142 reads a field of an absent record. Safe
  (log 12). -/
  | descriptorAbsent
  /-- A read of DESC, FMT or LAYOUTREG while `negotiated` = 0 (R22: "a model should fault it"; log 18),
  and a read of DESC with a format and no descriptor (log 28). Raised by the register view alone, by no
  step. Safe. -/
  | registerUnspecified
  deriving DecidableEq, Repr

/-- Why the machine refuses an operation. -/
inductive Refusal
  /-- An operation without a meaning: raised by Dispatch alone. Safe. -/
  | notModelled (mnemonic : String)
  /-- LAYOUT_LOOKUP with a count outside 1 to 8 (R100, U6: refuse). Safe. -/
  | layoutOutsideDomain
  /-- INTERLEAVE or REPACK invoked directly on no array or on arrays of unequal length (R176, U7:
  refuse). Safe. -/
  | frameNotRectangular
  /-- A packet that is no operation, raised by the step (log 16). Safe. -/
  | undecodable (why : Reject)
  deriving DecidableEq, Repr

/-- What an operation answers. -/
abbrev Result := Host.Outcome State Fault Refusal

end Sys2Proof.Machine
end

