-- ==== Sys2Proof/Machine/Operands.lean ====
section
/-! DEFINITION. How operands are read and written: bytes and bit fields of an input buffer, containers
of the output (00_scope.md R8; 20_memory.md R32, R33, R35). -/

namespace Sys2Proof.Machine

/-- `in[k]`. Every rule tests the length first, so the 0 past the end is read by none (R37). -/
def byteAt (b : Buffer) (k : Nat) : Byte := b.getD k 0#8

/-- The bit `k` bits from the start of a buffer, bit 7 of byte 0 being bit 0 (R8, R33). -/
def bitAt (b : Buffer) (k : Nat) : Bool := (byteAt b (k / 8)).getLsbD (7 - k % 8)

/-- `BitsRead(IN, off, n)`: the first bit read is the most significant of the result (R8, R33). -/
def bitsRead (b : Buffer) (off : Nat) : (n : Nat) → BitVec n
  | 0 => 0#0
  | n + 1 => (bitsRead b off n).concat (bitAt b (off + n))

/-- `MemRead(IN, off, n)`: `n` bytes, `in[off]` the most significant (R8, R32). -/
def memRead (b : Buffer) (off : Nat) : (n : Nat) → BitVec (8 * n)
  | 0 => 0#0
  | n + 1 => (memRead b off n ++ byteAt b (off + n) : BitVec (8 * n + 8))

/-- The `n` bytes `MemWrite(OUT, off, n, v)` stores, in increasing offset (R35). -/
def containerBytes (e : Endian) {n : Nat} (v : BitVec (8 * n)) : Buffer :=
  match e with
  | .little => (List.range n).map fun j => v.extractLsb' (8 * j) 8
  | .big => ((List.range n).map fun j => v.extractLsb' (8 * j) 8).reverse

/-- The answer of the primitive `P` for a buffer and a channel count (44_frame_decoder.md R141): the
entry a run fixes, else the open constant (log 5). It depends on its two arguments alone. -/
def primitive (ps : Params) (b : Buffer) (c : Nat) : PrimAnswer :=
  match ps.primTable.find? fun e => e.buf == b && e.channels == c with
  | some e => e.answer
  | none => Config.primitive b c

end Sys2Proof.Machine
end

