-- ==== Sys2Proof/Machine/Ops.lean ====
section
/-! DEFINITION. The shared operations over the state: the two entries of 60_exceptions.md (an error,
R230; an abort, R232) and what ends an abort (START and STOP, R234), the guards every PUSH and HEADERS
begins with (R201, R202), and the fetch of the next packet. -/

namespace Sys2Proof.Machine

/-- How an operation ends that can raise and abort (00_scope.md R8: `return`, `raise E(info)`,
`abort A`). -/
inductive Ending (α : Type)
  | done (a : α)
  | raise (e : ErrorName) (info : Option Detail)
  | abort (a : AbortReason)
  deriving DecidableEq, Repr

/-! ## Responses (30_encoding.md R63) -/

/-- `{ status = OK_NO_OUTPUT, class, consumed, events }`. -/
def Response.quietOk (cls : Option BufClass) (consumed : Nat) (events : List Event) : Response :=
  { status := .okNoOutput, cls := cls, error := none, severity := none, abortReason := none,
    detail := none, consumed := consumed, out := none, events := events }

/-- `{ status = OK_OUTPUT, class = AudioFrame, out, consumed = 1 }` (R195). -/
def Response.output (out : Buffer) : Response :=
  { status := .okOutput, cls := some .audioFrame, error := none, severity := none,
    abortReason := none, detail := none, consumed := 1, out := some out, events := [] }

/-- The severity of an error (60_exceptions.md R223). -/
def ErrorName.severity : ErrorName → Severity
  | .malformedStreamInfo => .recoverable
  | .trailingOrTruncatedData => .recoverable
  | .unsupportedSampleWidth => .sessionFatal
  | .unsupportedChannelCount => .sessionFatal
  | .notNegotiated => .recoverable
  | .frameDecodeError => .recoverable

/-- The response of a raised error (R230). -/
def Response.raised (cls : BufClass) (e : ErrorName) (info : Option Detail) : Response :=
  { status := .error, cls := some cls, error := some e, severity := some e.severity,
    abortReason := none, detail := info, consumed := 1, out := none, events := [] }

/-- The response of an abort, and of every command while it is latched (R232, R202). It carries no
class (log 11). -/
def Response.aborting (a : AbortReason) : Response :=
  { status := .abort, cls := none, error := none, severity := some .aborting, abortReason := some a,
    detail := none, consumed := 0, out := none, events := [] }

/-- The response outside a session (R201). -/
def Response.noSession : Response :=
  { status := .noSession, cls := none, error := none, severity := none, abortReason := none,
    detail := none, consumed := 0, out := none, events := [] }

/-! ## Updates of the state -/

/-- Answer a host command. -/
def State.respond (s : State) (r : Response) : State := { s with answer := some (.response r) }

/-- Answer an internal operation invoked on its own. -/
def State.report (s : State) (r : OpResult) : State := { s with answer := some (.result r) }

/-- The empty S with the session bit as given: what START and STOP leave (R26, R191, R192). It ends a
latched abort (R234). -/
def State.emptied (s : State) (session : Bool) : State :=
  { s with session := session, aborted := none, desc := none, fmt := none }

/-- Store a descriptor and its format, both and only together (R194, R198). -/
def State.storeFormat (s : State) (d : StreamDescriptor) (f : OutputFormat) : State :=
  { s with desc := some d, fmt := some f }

/-- `S.aborted <- some A`, nothing else (R8, R232). -/
def State.latch (s : State) (a : AbortReason) : State := { s with aborted := some a }

/-- Entry of an error in a PUSH (R230): S as it was, no output, the error in the response. -/
def State.takeError (s : State) (cls : BufClass) (e : ErrorName) (info : Option Detail) : State :=
  s.respond (.raised cls e info)

/-- Entry of an abort in a PUSH (R232): the latch set, no output, the reason in the response. -/
def State.takeAbort (s : State) (a : AbortReason) : State := (s.latch a).respond (.aborting a)

/-- The two guards of PUSH and HEADERS, in R227's order: no session (R201), then a latched abort
(R202); neither reads a buffer nor changes S. -/
def guarded (s : State) (body : State → Result) : Result :=
  if s.session = false then .next (s.respond .noSession)
  else
    match s.aborted with
    | some a => .next (s.respond (.aborting a))
    | none => body s

/-- An operation's ending, invoked on its own: an error changes nothing (R230), an abort is latched
(R232), whatever the session bit is (log 10) and in the place of a reason already latched (log 27). -/
def State.conclude {α : Type} (s : State) (r : Ending α) (show_ : α → OpResult) : State :=
  match r with
  | .done a => s.report (show_ a)
  | .raise e info => s.report (.error e info)
  | .abort a => (s.latch a).report (.abort a)

/-! ## Fetch -/

/-- No command outstanding: nothing happens (log 7). -/
def idle (s : State) : Result := .next s

/-- The state once the packet before `rest` is taken. -/
def State.taken (s : State) (rest : List Packet) : State := { s with pending := rest }

/-- A packet the decoder rejects. A bare buffer too short to classify is answered as its PUSH is
(43_frame_classifier.md R122; log 24); any other is refused by name (log 16). -/
def rejected (why : Reject) (s : State) : Result :=
  match why with
  | .shortBuffer => guarded s fun s => .next (s.takeAbort .shortBuffer)
  | .commandOperands => .refused (.undecodable .commandOperands)
  | .benchCode => .refused (.undecodable .benchCode)
  | .benchOperands => .refused (.undecodable .benchOperands)

/-- `s` with `p` as the next packet the step takes. A bare buffer's class is read under the MARKER the
table's rows are written with, so that one parameter is set with it (log 9). -/
def State.withPacket (s : State) (p : Packet) : State :=
  match p with
  | .buffer b =>
    { s with pending := .buffer b :: s.pending, params := { s.params with marker := tableMarker } }
  | .command code bufs => { s with pending := .command code bufs :: s.pending }
  | .bench code bufs => { s with pending := .bench code bufs :: s.pending }

end Sys2Proof.Machine
end

