-- ==== Sys2Proof/Machine/Classifier.lean ====
section
/-! DEFINITION. FrameClassifier: CLASSIFY (43_frame_classifier.md). -/

namespace Sys2Proof.Machine

/-- CLASSIFY (R121): the rules in order, with the two cases of R122. It reads no state. -/
def classify (marker : Vector Byte 4) (b : Buffer) : Except AbortReason BufClass :=
  if b.length = 0 then .error .shortBuffer
  else if b.length = 4 ∧ b = marker.toList then .ok .streamMarker
  else if byteAt b 0 &&& 0x7F#8 = 0x00#8 then .ok .metadataHeader
  else if byteAt b 0 = 0xFF#8 then
    if b.length < 2 then .error .shortBuffer
    else if byteAt b 1 &&& 0xFC#8 = 0xF8#8 then .ok .audioFrame
    else .ok .otherMetadataHeader
  else .ok .otherMetadataHeader

/-- CLASSIFY invoked on its own (R121). -/
def execClassify (b : Buffer) (s : State) : Result :=
  match classify s.params.marker b with
  | .ok c => .next (s.conclude (.done c) .cls)
  | .error a => .next (s.conclude (.abort a) .cls)

end Sys2Proof.Machine
end

