-- ==== Sys2Proof/Machine/Resolver.lean ====
section
/-! DEFINITION. ChannelLayoutTable and FormatResolver: LAYOUT_LOOKUP (41_channel_layout.md) and
RESOLVE_FORMAT (42_format_resolver.md). -/

namespace Sys2Proof.Machine

/-- LAYOUT_LOOKUP (R100): the first `n` entries of row `n - 1`; none outside 1 to 8. -/
def layoutLookup (t : LayoutTable) (n : Nat) : Option (List Position) :=
  if 1 ≤ n ∧ n ≤ 8 then
    match t[n - 1]? with
    | some row => some (row.toList.take n)
    | none => none
  else none

/-- The format tag of a width (R112). -/
def widthFormat (w : BitVec 6) : Option SampleFormat :=
  if w = 8#6 then some .s8
  else if w = 16#6 then some .s16
  else if w = 24#6 then some .s24in32
  else if w = 32#6 then some .s32
  else none

/-- RESOLVE_FORMAT (R111): the width (R112), then the channel range (R113), then the assembly
(R114). -/
def resolveFormat (t : LayoutTable) (d : StreamDescriptor) : Except ErrorName OutputFormat :=
  match widthFormat d.bitsPerSample with
  | none => .error .unsupportedSampleWidth
  | some fmt =>
    match layoutLookup t d.channelCount.toNat with
    | none => .error .unsupportedChannelCount
    | some ps =>
      .ok { sampleFormat := fmt, sampleRate := d.sampleRate, channelCount := d.channelCount,
            interleaved := .interleaved, channelLayout := ps }

/-- LAYOUT_LOOKUP invoked on its own (R100); refused outside its domain (U6). -/
def execLayoutLookup (n : BitVec 4) (s : State) : Result :=
  match layoutLookup s.params.layout n.toNat with
  | some ps => .next (s.report (.layout ps))
  | none => .refused .layoutOutsideDomain

/-- RESOLVE_FORMAT invoked on its own (R111). -/
def execResolveFormat (d : StreamDescriptor) (s : State) : Result :=
  match resolveFormat s.params.layout d with
  | .ok f => .next (s.conclude (.done f) .format)
  | .error e => .next (s.conclude (.raise e none) .format)

end Sys2Proof.Machine
end

