-- ==== Sys2Proof/Machine/FrameDecoder.lean ====
section
/-! DEFINITION. FrameDecoder: DECODE_FRAME (44_frame_decoder.md). -/

namespace Sys2Proof.Machine

/-- The shape a frame of `c` channels must have (R147): `c` arrays, each as long as the first. -/
def frameShapeOk (c : Nat) (f : Frame) : Bool :=
  f.length == c && f.all fun a => a.length == (f.headD []).length

/-- The call of `P` and the two post-checks (R145 to R147); `none` is NoOutput. -/
def callPrimitive (ps : Params) (c : Nat) (b : Buffer) : Ending (Option Frame) :=
  match primitive ps b c with
  | .noFrame => .done none
  | .fail detail => .raise .frameDecodeError (some detail)
  | .frame f consumed =>
    if consumed ≠ b.length then .abort .lengthMismatch
    else if frameShapeOk c f = false then .abort .frameShape
    else .done (some f)

/-- The defensive range checks (R144), then the call. -/
def decodeUnder (ps : Params) (d : StreamDescriptor) (b : Buffer) : Ending (Option Frame) :=
  if d.channelCount.toNat < 1 ∨ 8 < d.channelCount.toNat then .abort .channelRange
  else if widthFormat d.bitsPerSample = none then .abort .widthRange
  else callPrimitive ps d.channelCount.toNat b

/-- DECODE_FRAME (R142) as a function of the state it reads. -/
def decodeFrame (s : State) (b : Buffer) : Except Fault (Ending (Option Frame)) :=
  match s.fmt, s.desc with
  | none, _ => .ok (.raise .notNegotiated none)
  | some _, none => .error .descriptorAbsent
  | some _, some d => .ok (decodeUnder s.params d b)

/-- A DECODE_FRAME's normal result. -/
def frameResult : Option Frame → OpResult
  | none => .noOutput
  | some f => .frame f

/-- DECODE_FRAME invoked on its own (R142); it runs on every buffer, also on one CLASSIFY does not call an
AudioFrame, which is the model's choice (log 29). -/
def execDecodeFrame (b : Buffer) (s : State) : Result :=
  match decodeFrame s b with
  | .ok r => .next (s.conclude r frameResult)
  | .error e => .fault e

end Sys2Proof.Machine
end

