-- ==== Sys2Proof/Machine/Repacker.lean ====
section
/-! DEFINITION. SampleRepacker: INTERLEAVE, NARROW and the four REPACK forms
(45_sample_repacker.md). -/

namespace Sys2Proof.Machine

/-- `W(fmt)`, the container width in bytes (10_state.md R16). -/
def containerWidth : SampleFormat → Nat
  | .s8 => 1
  | .s16 => 2
  | .s24in32 => 4
  | .s32 => 4

/-- INTERLEAVE (R161), by its formula for every channel count: time index by time index, the channels
in order. -/
def interleave (f : Frame) : List Sample :=
  (List.range (f.headD []).length).flatMap fun i => f.map fun a => a.getD i 0#32

/-- `narrow_fmt` (R162): the low 8 or 16 bits, or the whole pattern. -/
def narrowSample (fmt : SampleFormat) (v : Sample) : BitVec (8 * containerWidth fmt) :=
  match fmt with
  | .s8 => v.setWidth 8
  | .s16 => v.setWidth 16
  | .s24in32 => v
  | .s32 => v

/-- NARROW (R163): one container per value, contiguous. -/
def narrow (e : Endian) (fmt : SampleFormat) (v : List Sample) : Buffer :=
  v.flatMap fun x => containerBytes e (narrowSample fmt x)

/-- `REPACK.<fmt>` (R167). -/
def repack (e : Endian) (fmt : SampleFormat) (f : Frame) : Buffer := narrow e fmt (interleave f)

/-- An operation on a frame, invoked on its own: refused outside the domain (R176, U7). -/
def onFrame (f : Frame) (s : State) (r : OpResult) : Result :=
  if Frame.isRectangular f then .next (s.report r) else .refused .frameNotRectangular

/-- INTERLEAVE invoked on its own (R161). -/
def execInterleave (f : Frame) (s : State) : Result := onFrame f s (.samples (interleave f))

/-- `NARROW.<fmt>` invoked on its own (R163). -/
def execNarrow (fmt : SampleFormat) (v : List Sample) (s : State) : Result :=
  .next (s.report (.bytes (narrow s.params.outEndian fmt v)))

/-- REPACK.S8 (R168). -/
def execRepackS8 (f : Frame) (s : State) : Result :=
  onFrame f s (.bytes (repack s.params.outEndian .s8 f))

/-- REPACK.S16 (R169). -/
def execRepackS16 (f : Frame) (s : State) : Result :=
  onFrame f s (.bytes (repack s.params.outEndian .s16 f))

/-- REPACK.S24_32 (R170). -/
def execRepackS24in32 (f : Frame) (s : State) : Result :=
  onFrame f s (.bytes (repack s.params.outEndian .s24in32 f))

/-- REPACK.S32 (R171). -/
def execRepackS32 (f : Frame) (s : State) : Result :=
  onFrame f s (.bytes (repack s.params.outEndian .s32 f))

end Sys2Proof.Machine
end

