-- ==== Sys2Proof/Machine/StreamInfo.lean ====
section
/-! DEFINITION. StreamInfoParser: PARSE_STREAMINFO (40_streaminfo_parser.md; the slice's layout,
30_encoding.md R56, R57). -/

namespace Sys2Proof.Machine

/-- `SI_LEN` (00_scope.md R5). -/
def siLen : Nat := 38

/-- The body length the tag bytes must announce (R55). -/
def siBodyLen : BitVec 24 := 34#24

/-- The tag bytes announce a STREAMINFO block (R83): block type 0, body length 34; bit 7 of byte 0 is
not compared. -/
def tagOk (b : Buffer) : Bool := byteAt b 0 &&& 0x7F#8 == 0x00#8 && memRead b 1 3 == siBodyLen

/-- The three kept fields (R57, R85). -/
def streamFields (b : Buffer) : StreamDescriptor :=
  { sampleRate := bitsRead b 112 20
    channelCount := (bitsRead b 132 3).setWidth 4 + 1
    bitsPerSample := (bitsRead b 135 5).setWidth 6 + 1 }

/-- PARSE_STREAMINFO (R81), its checks in the order R82, R83, R84. -/
def parseStreamInfo (b : Buffer) : Except ErrorName StreamDescriptor :=
  if b.length < siLen then .error .malformedStreamInfo
  else if tagOk b = false then .error .malformedStreamInfo
  else if b.length > siLen then .error .trailingOrTruncatedData
  else .ok (streamFields b)

/-- PARSE_STREAMINFO invoked on its own (R81). -/
def execParseStreamInfo (b : Buffer) (s : State) : Result :=
  match parseStreamInfo b with
  | .ok d => .next (s.conclude (.done d) .descriptor)
  | .error e => .next (s.conclude (.raise e none) .descriptor)

end Sys2Proof.Machine
end

