-- ==== Sys2Proof/Machine/Session.lean ====
section
/-! DEFINITION. The host commands START, STOP, PUSH, HEADERS (46_session_commands.md) and the routes of
the four buffer classes (43_frame_classifier.md R128). -/

namespace Sys2Proof.Machine

/-- START (R191). -/
def execStart (s : State) : Result := .next ((s.emptied true).respond (.quietOk none 0 []))

/-- STOP (R192). -/
def execStop (s : State) : Result := .next ((s.emptied false).respond (.quietOk none 0 []))

/-- The route of a class that runs nothing (R128, R193). -/
def pushIgnored (c : BufClass) (s : State) : Result := .next (s.respond (.quietOk (some c) 1 []))

/-- PUSH_HEADER (R194). -/
def pushHeader (b : Buffer) (s : State) : Result :=
  match parseStreamInfo b with
  | .error e => .next (s.takeError .metadataHeader e none)
  | .ok d =>
    match resolveFormat s.params.layout d with
    | .error e => .next (s.takeError .metadataHeader e none)
    | .ok f =>
      .next ((s.storeFormat d f).respond (.quietOk (some .metadataHeader) 1 [.negotiate f]))

/-- `REPACK F` with the format of the state (45_sample_repacker.md R167). Without a format the frame
could not have been decoded, and the answer is DECODE_FRAME's (R143). -/
def pushOutput (f : Frame) (s : State) : Result :=
  match s.fmt with
  | some fmt => .next (s.respond (.output (repack s.params.outEndian fmt.sampleFormat f)))
  | none => .next (s.takeError .audioFrame .notNegotiated none)

/-- PUSH_FRAME (R195). -/
def pushFrame (b : Buffer) (s : State) : Result :=
  match decodeFrame s b with
  | .error e => .fault e
  | .ok (.raise e info) => .next (s.takeError .audioFrame e info)
  | .ok (.abort a) => .next (s.takeAbort a)
  | .ok (.done none) => .next (s.respond (.quietOk (some .audioFrame) 1 []))
  | .ok (.done (some f)) => pushOutput f s

/-- What a PUSH does once the buffer is classified (R193). -/
def route (c : BufClass) (b : Buffer) (s : State) : Result :=
  match c with
  | .streamMarker => pushIgnored .streamMarker s
  | .metadataHeader => pushHeader b s
  | .audioFrame => pushFrame b s
  | .otherMetadataHeader => pushIgnored .otherMetadataHeader s

/-- PUSH past its guards (R193). -/
def pushBody (b : Buffer) (s : State) : Result :=
  match classify s.params.marker b with
  | .error a => .next (s.takeAbort a)
  | .ok c => route c b s

/-- PUSH (R193). -/
def execPush (b : Buffer) (s : State) : Result := guarded s (pushBody b)

/-- The route of a StreamMarker buffer, under the guards of the PUSH it is part of (R123, R128;
log 8). -/
def execClassStreamMarker (_b : Buffer) (s : State) : Result :=
  guarded s (pushIgnored .streamMarker)

/-- The route of a MetadataHeader buffer (R124, R128, R194; log 8). -/
def execClassMetadataHeader (b : Buffer) (s : State) : Result := guarded s (pushHeader b)

/-- The route of an AudioFrame buffer (R125, R128, R195; log 8). -/
def execClassAudioFrame (b : Buffer) (s : State) : Result := guarded s (pushFrame b)

/-- The route of an OtherMetadataHeader buffer (R126, R128; log 8). -/
def execClassOtherMetadataHeader (_b : Buffer) (s : State) : Result :=
  guarded s (pushIgnored .otherMetadataHeader)

/-- The identification buffer begins with IDENT_TAG (30_encoding.md R58). -/
def identOk (tag : Vector Byte 8) (h : Buffer) : Bool :=
  decide (8 ≤ h.length) && h.take 8 == tag.toList

/-- The format HEADERS proposes, none on any failure (R198): two buffers at least, the tag, a slice
that parses, a descriptor that resolves. -/
def headersFormat (ps : Params) (hdrs : List Buffer) : Option (StreamDescriptor × OutputFormat) :=
  match hdrs with
  | h0 :: h1 :: _ =>
    if identOk ps.identTag h0 then
      match parseStreamInfo h1 with
      | .error _ => none
      | .ok d =>
        match resolveFormat ps.layout d with
        | .error _ => none
        | .ok f => some (d, f)
    else none
  | _ => none

/-- HEADERS past its guards (R198). -/
def headersBody (hdrs : List Buffer) (s : State) : Result :=
  match headersFormat s.params hdrs with
  | none => .next (s.respond (.quietOk none 0 []))
  | some (d, f) => .next ((s.storeFormat d f).respond (.quietOk none 0 [.negotiate f]))

/-- HEADERS (R198). -/
def execHeaders (hdrs : List Buffer) (s : State) : Result := guarded s (headersBody hdrs)

end Sys2Proof.Machine
end

