-- ==== Sys2Proof/Machine/Dispatch.lean ====
section
/-! DEFINITION. The meaning of every operation, one arm per constructor. -/

namespace Sys2Proof.Machine

-- One arm per row of spec/opcode_table.json.
def exec (i : Instr) (s : State) : Host.Outcome State Fault Refusal :=
  match i with
  | .start => Sys2Proof.Machine.execStart s
  | .stop => Sys2Proof.Machine.execStop s
  | .push b => Sys2Proof.Machine.execPush b s
  | .headers hdrs => Sys2Proof.Machine.execHeaders hdrs s
  | .classStreamMarker b => Sys2Proof.Machine.execClassStreamMarker b s
  | .classMetadataHeader b => Sys2Proof.Machine.execClassMetadataHeader b s
  | .classAudioFrame b => Sys2Proof.Machine.execClassAudioFrame b s
  | .classOtherMetadataHeader b => Sys2Proof.Machine.execClassOtherMetadataHeader b s
  | .classify b => Sys2Proof.Machine.execClassify b s
  | .parseStreamInfo b => Sys2Proof.Machine.execParseStreamInfo b s
  | .layoutLookup n => Sys2Proof.Machine.execLayoutLookup n s
  | .resolveFormat d => Sys2Proof.Machine.execResolveFormat d s
  | .decodeFrame b => Sys2Proof.Machine.execDecodeFrame b s
  | .interleave f => Sys2Proof.Machine.execInterleave f s
  | .narrow fmt v => Sys2Proof.Machine.execNarrow fmt v s
  | .repackS8 f => Sys2Proof.Machine.execRepackS8 f s
  | .repackS16 f => Sys2Proof.Machine.execRepackS16 f s
  | .repackS24in32 f => Sys2Proof.Machine.execRepackS24in32 f s
  | .repackS32 f => Sys2Proof.Machine.execRepackS32 f s

end Sys2Proof.Machine
end

