-- ==== Sys2Proof/Machine/Step.lean ====
section
/-! DEFINITION. One step: the next pending packet is taken, decoded and run as one transaction
(46_session_commands.md R190; logs 1, 7, 9). -/

namespace Sys2Proof.Machine

/-- One transaction. -/
def step (s : State) : Host.Outcome State Fault Refusal :=
  match s.pending with
  | [] => idle s
  | p :: rest =>
    match Sys2Proof.decode s.params.marker p with
    | .ok i => exec i (s.taken rest)
    | .error why => rejected why (s.taken rest)

/-- `s` with the operation of a table row's word as the next packet (log 9). -/
def State.withFetchWord (s : State) (nbits w : Nat) : State :=
  s.withPacket (Sys2Proof.packetOfTableWord nbits w)

end Sys2Proof.Machine
end

