-- ==== Sys2Proof/Machine/Flags.lean ====
section
/-! DEFINITION. What a host can observe of S: the three status bits (10_state.md R21), the register
view (R22), the session's condition (60_exceptions.md R240), and the numeric codes of R63 to R66. No
operation sets an arithmetic flag (R21). -/

namespace Sys2Proof.Machine

/-! ## Codes -/

/-- Class codes (R63, R65). -/
def BufClass.code : BufClass → BitVec 2
  | .streamMarker => 0
  | .metadataHeader => 1
  | .audioFrame => 2
  | .otherMetadataHeader => 3

/-- Status codes (R63). -/
def Status.code : Status → BitVec 3
  | .okNoOutput => 0
  | .okOutput => 1
  | .error => 2
  | .abort => 3
  | .noSession => 4

/-- Error codes (R63, R221). -/
def ErrorName.code : ErrorName → BitVec 3
  | .malformedStreamInfo => 1
  | .trailingOrTruncatedData => 2
  | .unsupportedSampleWidth => 3
  | .unsupportedChannelCount => 4
  | .notNegotiated => 5
  | .frameDecodeError => 6

/-- Severity codes (R63). -/
def Severity.code : Severity → BitVec 2
  | .recoverable => 0
  | .sessionFatal => 1
  | .aborting => 2

/-- Abort reason codes (R22, R63, R224); 0 is "none". -/
def AbortReason.code : AbortReason → BitVec 3
  | .lengthMismatch => 1
  | .channelRange => 2
  | .widthRange => 3
  | .frameShape => 4
  | .shortBuffer => 5

/-- Position codes (R66). -/
def positionCode : Position → BitVec 4
  | .mono => 0
  | .frontLeft => 1
  | .frontCenter => 2
  | .frontRight => 3
  | .rearLeft => 4
  | .rearRight => 5
  | .sideLeft => 6
  | .sideRight => 7
  | .rearCenter => 8
  | .lowFrequencyEffects => 9
  | .invalid => 15

/-! ## Status bits and condition -/

/-- The status bit `aborted` (R21). -/
def State.isAborted (s : State) : Bool := s.aborted.isSome

/-- The status bit `negotiated` (R21). -/
def State.isNegotiated (s : State) : Bool := s.fmt.isSome

/-- The conditions a session can be in (R240). -/
inductive Condition
  | idle
  | active
  | aborted
  deriving DecidableEq, Repr

/-- The condition of a state (R240). -/
def State.condition (s : State) : Condition :=
  if s.session = false then .idle
  else if s.isAborted then .aborted
  else .active

/-! ## The register view (R22), read-only -/

/-- STATUS: bit 0 session, bit 1 negotiated, bit 2 aborted, bits 5:3 the abort reason. -/
def State.readStatus (s : State) : BitVec 6 :=
  (match s.aborted with
    | none => 0#3
    | some a => a.code) ++
  BitVec.ofBool s.isAborted ++ BitVec.ofBool s.isNegotiated ++ BitVec.ofBool s.session

/-- DESC: rate 19:0, channel count 23:20, bits per sample 29:24; no meaning while not negotiated (R22),
and the same fault, the model's choice, with a format and no descriptor (log 28). -/
def State.readDesc (s : State) : Except Fault (BitVec 30) :=
  match s.fmt, s.desc with
  | some _, some d => .ok d.bits
  | _, _ => .error .registerUnspecified

/-- FMT: the format's code in 1:0, bit 2 hardwired to 1; no meaning while not negotiated. -/
def State.readFmt (s : State) : Except Fault (BitVec 3) :=
  match s.fmt with
  | some f => .ok (1#1 ++ f.sampleFormat.code)
  | none => .error .registerUnspecified

/-- Position `k` of a layout, Invalid from the channel count on (R22). -/
def layoutPosition (ps : List Position) (k : Nat) : Position := ps.getD k .invalid

/-- LAYOUTREG: the code of position `k` in bits 4k+3:4k; no meaning while not negotiated. -/
def State.readLayoutReg (s : State) : Except Fault (BitVec 32) :=
  match s.fmt with
  | some f =>
    let p k := positionCode (layoutPosition f.channelLayout k)
    .ok (p 7 ++ p 6 ++ p 5 ++ p 4 ++ p 3 ++ p 2 ++ p 1 ++ p 0)
  | none => .error .registerUnspecified

end Sys2Proof.Machine
end

