-- ==== Sys2Proof/Safety.lean ====
section
/-! DEFINITION. The vocabulary of the claims: the invariants of 10_state.md R13, and the spec's own
formulas (30_encoding.md R57, 20_memory.md R35, 00_scope.md R7) written apart from the machine's
definitions, so that a claim compares two texts. -/

namespace Sys2Proof

open Sys2Proof.Machine

/-! ## Conditions on the state -/

/-- Active: a session, no latched abort (60_exceptions.md R240). -/
abbrev Active (s : State) : Prop := s.session = true ∧ s.aborted = none

/-- A descriptor in the ranges of R13 item 4. -/
abbrev DescriptorInRange (d : StreamDescriptor) : Prop :=
  (1 ≤ d.channelCount.toNat ∧ d.channelCount.toNat ≤ 8) ∧
    (d.bitsPerSample.toNat = 8 ∨ d.bitsPerSample.toNat = 16 ∨ d.bitsPerSample.toNat = 24 ∨
      d.bitsPerSample.toNat = 32)

/-- R13 item 1 for the stream fields, and items 2, 3 and 4. -/
structure StreamInv (s : State) : Prop where
  idle_empty : s.session = false → s.desc = none ∧ s.fmt = none
  both_or_neither : s.desc = none ↔ s.fmt = none
  format_derived : ∀ d f, s.desc = some d → s.fmt = some f →
    resolveFormat s.params.layout d = .ok f
  in_range : ∀ d, s.desc = some d → DescriptorInRange d

/-- R13 items 1 to 4 whole. -/
structure SessionInv (s : State) : Prop extends StreamInv s where
  idle_unaborted : s.session = false → s.aborted = none

/-! ## Kinds of operation -/

/-- The operations a PUSH or a HEADERS runs under its guards (R193, R198, R128). -/
def Instr.isGuarded : Instr → Bool
  | .push _ | .headers _ => true
  | .classStreamMarker _ | .classMetadataHeader _ => true
  | .classAudioFrame _ | .classOtherMetadataHeader _ => true
  | _ => false

/-- The internal operations, invoked on their own (R4). -/
def Instr.isInternal : Instr → Bool
  | .classify _ | .parseStreamInfo _ | .layoutLookup _ | .resolveFormat _ | .decodeFrame _ => true
  | .interleave _ | .narrow _ _ | .repackS8 _ | .repackS16 _ | .repackS24in32 _ | .repackS32 _ => true
  | _ => false

/-- A host command with the operands R62 gives it, as a packet. -/
def Packet.isCommand : Packet → Bool
  | .command code bufs =>
    if code = 0#2 ∨ code = 1#2 then bufs.isEmpty
    else if code = 2#2 then bufs.length == 1
    else true
  | _ => false

/-- A PUSH or HEADERS, as a packet. -/
def Packet.isPushOrHeaders : Packet → Bool
  | .command code bufs => if code = 2#2 then bufs.length == 1 else code == 3#2
  | _ => false

/-- The row of a class, with its buffer. -/
def classRow (c : BufClass) (b : Buffer) : Instr :=
  match c with
  | .streamMarker => .classStreamMarker b
  | .metadataHeader => .classMetadataHeader b
  | .audioFrame => .classAudioFrame b
  | .otherMetadataHeader => .classOtherMetadataHeader b

/-- The REPACK form of a format, with its frame. -/
def repackRow (fmt : SampleFormat) (f : Frame) : Instr :=
  match fmt with
  | .s8 => .repackS8 f
  | .s16 => .repackS16 f
  | .s24in32 => .repackS24in32 f
  | .s32 => .repackS32 f

/-! ## The STREAMINFO slice by its bytes (30_encoding.md R55 to R57) -/

/-- 38 bytes whose tag bytes announce a STREAMINFO block. -/
abbrev IsStreamInfo (b : Buffer) : Prop :=
  b.length = 38 ∧ (byteAt b 0).extractLsb' 0 7 = 0#7 ∧
    byteAt b 1 = 0#8 ∧ byteAt b 2 = 0#8 ∧ byteAt b 3 = 34#8

/-- `R = (in[14] << 12) | (in[15] << 4) | (in[16] >> 4)`. -/
def sliceRate (b : Buffer) : BitVec 20 :=
  ((byteAt b 14).setWidth 20 <<< 12) ||| ((byteAt b 15).setWidth 20 <<< 4) |||
    ((byteAt b 16 >>> 4).setWidth 20)

/-- `((in[16] >> 1) & 0x7) + 1`. -/
def sliceChannels (b : Buffer) : BitVec 4 := ((byteAt b 16 >>> 1) &&& 0x7#8).setWidth 4 + 1#4

/-- `(((in[16] & 0x1) << 4) | (in[17] >> 4)) + 1`. -/
def sliceWidth (b : Buffer) : BitVec 6 :=
  (((byteAt b 16 &&& 0x1#8).setWidth 6 <<< 4) ||| (byteAt b 17 >>> 4).setWidth 6) + 1#6

/-- The descriptor of a slice by R57. -/
def sliceDescriptor (b : Buffer) : StreamDescriptor :=
  { sampleRate := sliceRate b, channelCount := sliceChannels b, bitsPerSample := sliceWidth b }

/-- The bit width a format tag stands for (42_format_resolver.md R112, R119). -/
def formatBits : SampleFormat → Nat
  | .s8 => 8
  | .s16 => 16
  | .s24in32 => 24
  | .s32 => 32

/-- The first `n` entries of LAYOUT's row `n - 1` (41_channel_layout.md R100). -/
def layoutEntries (t : LayoutTable) (n : Nat) : List Position :=
  ((t.toList.map (·.toList)).getD (n - 1) []).take n

/-- The OutputFormat R114 assembles. -/
def assembledFormat (t : LayoutTable) (d : StreamDescriptor) (fmt : SampleFormat) : OutputFormat :=
  { sampleFormat := fmt, sampleRate := d.sampleRate, channelCount := d.channelCount,
    interleaved := .interleaved, channelLayout := layoutEntries t d.channelCount.toNat }

/-! ## Containers by their bytes (20_memory.md R35, 45_sample_repacker.md R162) -/

/-- Byte `j` of the `w`-byte container of a sample: the pattern's byte `j` counted from the least
significant (little) or from the most significant of the `w` kept (big). -/
def containerByte (e : Endian) (w : Nat) (x : Sample) (j : Nat) : Byte :=
  match e with
  | .little => x.extractLsb' (8 * j) 8
  | .big => x.extractLsb' (8 * (w - 1 - j)) 8

/-- A frame of `c` arrays of `n` samples. -/
abbrev HasShape (c n : Nat) (f : Frame) : Prop := f.length = c ∧ ∀ a ∈ f, a.length = n

/-- `out` is the output of a frame in a format, by R166: the length, and every byte of the container
of channel `c`'s sample `i` at `(i*C + c)*W`. -/
def IsOutputOf (e : Endian) (fmt : SampleFormat) (f : Frame) (out : Buffer) : Prop :=
  ∀ n, HasShape f.length n f →
    out.length = n * f.length * containerWidth fmt ∧
      ∀ i, i < n → ∀ c, c < f.length → ∀ j, j < containerWidth fmt →
        out[(i * f.length + c) * containerWidth fmt + j]? =
          some (containerByte e (containerWidth fmt) ((f.getD c []).getD i 0#32) j)

/-- The unsigned number a container's bytes hold in a byte order (R35). -/
def containerNat (e : Endian) (bs : Buffer) : Nat :=
  match e with
  | .little => bs.foldr (fun b acc => b.toNat + 256 * acc) 0
  | .big => bs.foldl (fun acc b => 256 * acc + b.toNat) 0

/-- `as_sN` (00_scope.md R7). -/
def asSigned (bits v : Nat) : Int := if v < 2 ^ (bits - 1) then (v : Int) else (v : Int) - 2 ^ bits

/-- The container at position `k` of an output, read back as a signed number. -/
def readBack (e : Endian) (fmt : SampleFormat) (out : Buffer) (k : Nat) : Int :=
  asSigned (8 * containerWidth fmt)
    (containerNat e ((out.drop (k * containerWidth fmt)).take (containerWidth fmt)))

/-- The sample fits its container (R164, R172). -/
abbrev FitsContainer (fmt : SampleFormat) (x : Sample) : Prop :=
  -(2 : Int) ^ (8 * containerWidth fmt - 1) ≤ x.toInt ∧
    x.toInt < (2 : Int) ^ (8 * containerWidth fmt - 1)

/-! ## Responses by their fields (30_encoding.md R63) -/

/-- OK_NO_OUTPUT. -/
def okNoOutput (cls : Option BufClass) (consumed : Nat) (events : List Event) : Answer :=
  .response
    { status := .okNoOutput, cls := cls, error := none, severity := none, abortReason := none,
      detail := none, consumed := consumed, out := none, events := events }

/-- ERROR, in a PUSH. -/
def errorAnswer (cls : BufClass) (e : ErrorName) (sev : Severity) (detail : Option Detail) : Answer :=
  .response
    { status := .error, cls := some cls, error := some e, severity := some sev, abortReason := none,
      detail := detail, consumed := 1, out := none, events := [] }

/-- ABORT. -/
def abortAnswer (a : AbortReason) : Answer :=
  .response
    { status := .abort, cls := none, error := none, severity := some .aborting,
      abortReason := some a, detail := none, consumed := 0, out := none, events := [] }

/-- OK_OUTPUT. -/
def outputAnswer (out : Buffer) : Answer :=
  .response
    { status := .okOutput, cls := some .audioFrame, error := none, severity := none,
      abortReason := none, detail := none, consumed := 1, out := some out, events := [] }

/-- NO_SESSION. -/
def noSessionAnswer : Answer :=
  .response
    { status := .noSession, cls := none, error := none, severity := none, abortReason := none,
      detail := none, consumed := 0, out := none, events := [] }

end Sys2Proof
end

