-- ==== Sys2Proof/Certificates/Slice0/Obligations.lean ====
section
/-! DEFINITION. The statements about the block, from the numbered rules of spec/. A statement whose
result is written as an equation `exec i s = .next { s with .. }` gives the whole next state, so it is
at once the operation's completion and its frame: every field it does not name is unchanged. Where a
statement names a CLASS row beside its PUSH, that the row runs under the PUSH's guards is log 8. -/

section

open Sys2Proof Sys2Proof.Machine

/-! ## Encoding -/

/-- 30_encoding.md R54, R62 and the model's packet form (log 2): decoding the packet of a well-formed
operation gives the operation back, whatever MARKER is. -/
def Obligations.DecodeOfEncodeIsIdentity : Prop :=
  ∀ (m : Vector Byte 4) (i : Instr), i.wellFormed m = true → decode m (encode i) = .ok i

/-- Packets written out from the spec's encodings: the four command codes (R62) and one buffer of each
class (R51 to R54; the marker's own bytes are the table's suggested value). -/
def Obligations.SpecPatternsDecode : Prop :=
  decode tableMarker (.command 0b00#2 []) = .ok .start ∧
    decode tableMarker (.command 0b01#2 []) = .ok .stop ∧
    decode tableMarker (.command 0b10#2 [[0x66#8, 0x4C#8]]) = .ok (.push [0x66#8, 0x4C#8]) ∧
    decode tableMarker (.command 0b11#2 [[], [0x01#8]]) = .ok (.headers [[], [0x01#8]]) ∧
    decode tableMarker (.buffer [0x66#8, 0x4C#8, 0x61#8, 0x43#8]) =
      .ok (.classStreamMarker [0x66#8, 0x4C#8, 0x61#8, 0x43#8]) ∧
    decode tableMarker (.buffer [0x80#8, 0xF8#8]) = .ok (.classMetadataHeader [0x80#8, 0xF8#8]) ∧
    decode tableMarker (.buffer [0xFF#8, 0xFB#8]) = .ok (.classAudioFrame [0xFF#8, 0xFB#8]) ∧
    decode tableMarker (.buffer [0xFF#8, 0xFC#8]) =
      .ok (.classOtherMetadataHeader [0xFF#8, 0xFC#8]) ∧
    decodeTableWord 32 0x664C6143 = some (.classStreamMarker [0x66#8, 0x4C#8, 0x61#8, 0x43#8]) ∧
    decodeTableWord 16 0xFFF8 = some (.classAudioFrame [0xFF#8, 0xF8#8])

/-- R50, R54, R121: a bare buffer decodes to the row of the class CLASSIFY gives it, and to none
exactly where CLASSIFY aborts. The two are written apart (Decode, Classifier). The abort is the spec's
decision D16 (log 24), byte 0 alone and the whole marker its D14 and D15 (log 25). -/
def Obligations.BufferDecodesToItsClassRow : Prop :=
  ∀ (m : Vector Byte 4) (b : Buffer),
    (∀ c, classify m b = .ok c → decode m (.buffer b) = .ok (classRow c b)) ∧
      (∀ a, classify m b = .error a →
        a = .shortBuffer ∧ decode m (.buffer b) = .error .shortBuffer)

/-! ## The step -/

/-- The step takes the next packet, decodes it under MARKER and is exec of what it decodes to, at the
state with that packet taken. -/
def Obligations.StepRunsTheDecodedOperation : Prop :=
  ∀ (s : State) (p : Packet) (rest : List Packet) (i : Instr), s.pending = p :: rest →
    decode s.params.marker p = .ok i → step s = exec i { s with pending := rest }

/-- The step where there is no operation to run (the model's own, logs 7, 16, 24): with nothing
outstanding the state stays; a bare buffer too short to classify is answered as its PUSH is; any other
packet the decoder rejects is refused by the decoder's reason. -/
def Obligations.StepWithoutAnOperation : Prop :=
  (∀ s : State, s.pending = [] → step s = .next s) ∧
    (∀ (s : State) (b : Buffer) (rest : List Packet), s.pending = .buffer b :: rest →
      Buffer.isTooShort b = true → step s = exec (.push b) { s with pending := rest }) ∧
    (∀ (s : State) (p : Packet) (rest : List Packet) (why : Reject), s.pending = p :: rest →
      decode s.params.marker p = .error why → why ≠ .shortBuffer →
      step s = .refused (.undecodable why))

/-! ## Reset, START, STOP -/

/-- R27's reset values of S, the spec's decision D27 (log 15); whatever the open parameters are. -/
def Obligations.ResetIsIdleAndEmpty : Prop :=
  State.reset.session = false ∧ State.reset.aborted = none ∧ State.reset.desc = none ∧
    State.reset.fmt = none ∧ State.reset.condition = .idle ∧ State.reset.params.layout.Ok

/-- R26, R191, R192: what START and STOP leave and answer, from every state; nothing else changes. That a
START while active and a STOP while idle run as always is the spec's decision D22, the answer's count of 0
its D21 (log 23). -/
def Obligations.StartAndStopLeaveTheEmptyState : Prop :=
  ∀ s : State,
    exec .start s = .next { s with session := true, aborted := none, desc := none, fmt := none,
                                   answer := some (okNoOutput none 0 []) } ∧
      exec .stop s = .next { s with session := false, aborted := none, desc := none, fmt := none,
                                    answer := some (okNoOutput none 0 []) }

/-! ## The guards of PUSH and HEADERS -/

/-- R201 (the spec's decision D22): outside a session a PUSH, a HEADERS and a class row answer
NO_SESSION and change nothing. -/
def Obligations.OutsideASessionNothingChanges : Prop :=
  ∀ (s : State) (i : Instr), i.isGuarded = true → s.session = false →
    exec i s = .next { s with answer := some noSessionAnswer }

/-- R202 (the spec's decision D19): with an abort latched they answer ABORT with its reason and change
nothing. -/
def Obligations.LatchedAbortAnswersAndChangesNothing : Prop :=
  ∀ (s : State) (i : Instr) (a : AbortReason), i.isGuarded = true → s.session = true →
    s.aborted = some a → exec i s = .next { s with answer := some (abortAnswer a) }

/-- R202 over runs (T7): once an abort is latched, every further PUSH or HEADERS, however many, is
answered ABORT with the same reason and without output, and leaves S as it is. -/
def Obligations.LatchSurvivesEveryPushAndHeaders : Prop :=
  ∀ (ps rest : List Packet) (s : State) (a : AbortReason),
    (∀ p ∈ ps, p.isPushOrHeaders = true) → ps ≠ [] → s.pending = ps ++ rest →
    s.session = true → s.aborted = some a →
    Sys2Proof.core.run ps.length s =
      .next { s with pending := rest, answer := some (abortAnswer a) }

/-! ## PUSH -/

/-- R50, R68, R128: a PUSH is the row its buffer decodes to. -/
def Obligations.PushRunsTheRowOfItsBuffer : Prop :=
  ∀ (s : State) (b : Buffer) (i : Instr), decode s.params.marker (.buffer b) = .ok i →
    exec (.push b) s = exec i s

/-- R193, R128: a StreamMarker and an OtherMetadataHeader buffer are handled with no output and leave
S as it is, negotiated or not. That the marker is a whole buffer is the spec's decision D15 (log 25), the
response's count its D21 (log 23). -/
def Obligations.MarkerAndOtherMetadataAreIgnored : Prop :=
  ∀ (s : State) (b : Buffer), Active s →
    ((Instr.classStreamMarker b).wellFormed s.params.marker = true →
      exec (.push b) s =
          .next { s with answer := some (okNoOutput (some .streamMarker) 1 []) } ∧
        exec (.classStreamMarker b) s =
          .next { s with answer := some (okNoOutput (some .streamMarker) 1 []) }) ∧
      ((Instr.classOtherMetadataHeader b).wellFormed s.params.marker = true →
        exec (.push b) s =
            .next { s with answer := some (okNoOutput (some .otherMetadataHeader) 1 []) } ∧
          exec (.classOtherMetadataHeader b) s =
            .next { s with answer := some (okNoOutput (some .otherMetadataHeader) 1 []) })

/-- R194, R57, R114, R196: a PUSH of a STREAMINFO slice with a supported width stores the descriptor
read by R57's formulas and the format R114 assembles, offers the format, and changes nothing else. The
slice's layout is the spec's from general knowledge (D11, D12, G2; log 17), the event on every header its
decision D20 (log 25), the response's count its D21 (log 23). -/
def Obligations.HeaderPushStoresDescriptorAndFormat : Prop :=
  ∀ (s : State) (b : Buffer) (fmt : SampleFormat), Active s → IsStreamInfo b →
    (sliceWidth b).toNat = formatBits fmt →
    let f := assembledFormat s.params.layout (sliceDescriptor b) fmt
    let t : State := { s with
      desc := some (sliceDescriptor b)
      fmt := some f
      answer := some (okNoOutput (some .metadataHeader) 1 [.negotiate f]) }
    exec (.push b) s = .next t ∧ exec (.classMetadataHeader b) s = .next t

/-- R82 to R84, R112, R223, R230: a header that fails leaves S as it was and reports the error of the
first check that fails, with its severity. That S is kept is the spec's decision D18, the checks' order
D13, the severity of the first two D35, the count D21 (logs 17, 23). The tag's body length and the place
of the width are the spec's from general knowledge (D11, D12, G2; log 17). -/
def Obligations.FailedHeaderLeavesTheState : Prop :=
  ∀ (s : State) (b : Buffer), Active s →
    (Instr.classMetadataHeader b).wellFormed s.params.marker = true →
    let tagged := byteAt b 1 = 0#8 ∧ byteAt b 2 = 0#8 ∧ byteAt b 3 = 34#8
    let e : ErrorName × Severity → State := fun x =>
      { s with answer := some (errorAnswer .metadataHeader x.1 x.2 none) }
    (b.length < 38 ∨ ¬ tagged →
      exec (.push b) s = .next (e (.malformedStreamInfo, .recoverable)) ∧
        exec (.classMetadataHeader b) s = .next (e (.malformedStreamInfo, .recoverable))) ∧
      (38 < b.length → tagged →
        exec (.push b) s = .next (e (.trailingOrTruncatedData, .recoverable)) ∧
          exec (.classMetadataHeader b) s = .next (e (.trailingOrTruncatedData, .recoverable))) ∧
      (b.length = 38 → tagged → (∀ fmt, (sliceWidth b).toNat ≠ formatBits fmt) →
        exec (.push b) s = .next (e (.unsupportedSampleWidth, .sessionFatal)) ∧
          exec (.classMetadataHeader b) s = .next (e (.unsupportedSampleWidth, .sessionFatal)))

/-- R143: without a format an audio frame raises NotNegotiated, whatever `P` would answer (the
parameters are arbitrary); it is recoverable, gives no output and no event, and leaves S unchanged. The
response's count is left to ResponsesHaveAtMostOneOutputOrEvent. That DECODE_FRAME on its own runs on every
buffer is log 29. -/
def Obligations.FrameBeforeFormatIsNotNegotiated : Prop :=
  ∀ (s : State) (b : Buffer), s.fmt = none →
    exec (.decodeFrame b) s =
        .next { s with answer := some (.result (.error .notNegotiated none)) } ∧
      (Active s → (Instr.classAudioFrame b).wellFormed s.params.marker = true →
        ∃ r : Response, r.status = .error ∧ r.error = some .notNegotiated ∧
          r.severity = some .recoverable ∧ r.out = none ∧ r.events = [] ∧
          exec (.push b) s = .next { s with answer := some (.response r) } ∧
          exec (.classAudioFrame b) s = .next { s with answer := some (.response r) })

/-- R145: the primitive is asked with the buffer and the descriptor's channel count; NoFrame is no
output and Fail is FrameDecodeError with its detail, neither changing S. That NoFrame is not checked
for consumption is the spec's decision D32 (log 25), that the detail is open its D36 (log 6), the
response's count its D21 (log 23). -/
def Obligations.PrimitiveWithoutFrameLeavesTheState : Prop :=
  ∀ (s : State) (b : Buffer) (d : StreamDescriptor) (f : OutputFormat), Active s →
    (Instr.classAudioFrame b).wellFormed s.params.marker = true →
    s.desc = some d → s.fmt = some f → DescriptorInRange d →
    (primitive s.params b d.channelCount.toNat = .noFrame →
      exec (.push b) s = .next { s with answer := some (okNoOutput (some .audioFrame) 1 []) } ∧
        exec (.classAudioFrame b) s =
          .next { s with answer := some (okNoOutput (some .audioFrame) 1 []) }) ∧
      (∀ detail, primitive s.params b d.channelCount.toNat = .fail detail →
        let a := errorAnswer .audioFrame .frameDecodeError .recoverable (some detail)
        exec (.push b) s = .next { s with answer := some a } ∧
          exec (.classAudioFrame b) s = .next { s with answer := some a })

/-- R195, R166: a frame that passes the post-checks gives exactly one output buffer, whose length and
every byte are those of R166 in the state's format and OUT_ENDIAN; S is unchanged. For a sample outside
its container's range, or outside 24 bits, the bytes are the spec's decisions D24 and D33 (log 19); the
response's count is its D21 (log 23). -/
def Obligations.DecodedFrameGivesOneOutputBuffer : Prop :=
  ∀ (s : State) (b : Buffer) (d : StreamDescriptor) (f : OutputFormat) (fr : Frame) (n : Nat),
    Active s → (Instr.classAudioFrame b).wellFormed s.params.marker = true →
    s.desc = some d → s.fmt = some f → DescriptorInRange d →
    primitive s.params b d.channelCount.toNat = .frame fr b.length →
    HasShape d.channelCount.toNat n fr →
    ∃ out, IsOutputOf s.params.outEndian f.sampleFormat fr out ∧
      out.length = n * d.channelCount.toNat * containerWidth f.sampleFormat ∧
      exec (.push b) s = .next { s with answer := some (outputAnswer out) } ∧
      exec (.classAudioFrame b) s = .next { s with answer := some (outputAnswer out) }

/-- R146, R232: a primitive that consumed fewer or more bytes than the buffer holds aborts with
LengthMismatch, whatever the frame's shape; the latch is set and nothing else of S. The latch is the
spec's decision D19, the response's count its D21; that it has no class is log 11. -/
def Obligations.LengthMismatchAborts : Prop :=
  ∀ (s : State) (b : Buffer) (d : StreamDescriptor) (f : OutputFormat) (fr : Frame) (k : Nat),
    Active s → (Instr.classAudioFrame b).wellFormed s.params.marker = true →
    s.desc = some d → s.fmt = some f → DescriptorInRange d →
    primitive s.params b d.channelCount.toNat = .frame fr k → k ≠ b.length →
    let t : State :=
      { s with aborted := some .lengthMismatch, answer := some (abortAnswer .lengthMismatch) }
    exec (.push b) s = .next t ∧ exec (.classAudioFrame b) s = .next t

/-- R147 (the spec's decision D25, log 25): a wholly consumed frame of the wrong shape aborts with
FrameShape. The latch is its decision D19, the response's count its D21 (log 23); that the response has no
class, although the buffer was classified, is log 11. -/
def Obligations.WrongFrameShapeAborts : Prop :=
  ∀ (s : State) (b : Buffer) (d : StreamDescriptor) (f : OutputFormat) (fr : Frame),
    Active s → (Instr.classAudioFrame b).wellFormed s.params.marker = true →
    s.desc = some d → s.fmt = some f → DescriptorInRange d →
    primitive s.params b d.channelCount.toNat = .frame fr b.length →
    (∀ n, ¬ HasShape d.channelCount.toNat n fr) →
    let t : State := { s with aborted := some .frameShape, answer := some (abortAnswer .frameShape) }
    exec (.push b) s = .next t ∧ exec (.classAudioFrame b) s = .next t

/-- R144: a descriptor out of range at decode time aborts, the channel count tested first, whatever the
primitive would answer; in a PUSH and in a DECODE_FRAME invoked on its own. The latch is the spec's
decision D19, the response's count its D21 (log 23). That DECODE_FRAME on its own latches in every state,
with or without a session, is log 10, in the place of a reason already latched log 27, and on every buffer
log 29; that the PUSH's response has no class is log 11. -/
def Obligations.DescriptorOutOfRangeAborts : Prop :=
  ∀ (s : State) (b : Buffer) (d : StreamDescriptor) (f : OutputFormat),
    s.desc = some d → s.fmt = some f → ¬ DescriptorInRange d →
    let a : AbortReason :=
      if 1 ≤ d.channelCount.toNat ∧ d.channelCount.toNat ≤ 8 then .widthRange else .channelRange
    exec (.decodeFrame b) s =
        .next { s with aborted := some a, answer := some (.result (.abort a)) } ∧
      (Active s → (Instr.classAudioFrame b).wellFormed s.params.marker = true →
        exec (.push b) s = .next { s with aborted := some a, answer := some (abortAnswer a) })

/-- R122 (the spec's decision D16, log 24): an empty buffer and the single byte `0xFF` abort the session.
The latch is its decision D19, the response's count its D21 (log 23). -/
def Obligations.ShortBufferAborts : Prop :=
  ∀ s : State, Active s →
    let t : State :=
      { s with aborted := some .shortBuffer, answer := some (abortAnswer .shortBuffer) }
    exec (.push []) s = .next t ∧ exec (.push [0xFF#8]) s = .next t

/-- A state with a format and no descriptor (which R13 item 2 excludes) stops DECODE_FRAME by the
model's own fault (log 12), on every buffer (log 29). -/
def Obligations.FormatWithoutDescriptorFaults : Prop :=
  ∀ (s : State) (b : Buffer) (f : OutputFormat), s.fmt = some f → s.desc = none →
    exec (.decodeFrame b) s = .fault .descriptorAbsent

/-! ## HEADERS -/

/-- R198: with the tag and a slice that parses and resolves, HEADERS stores the descriptor and the
format and offers it; bytes after the tag and buffers after the second do not matter. The steps are the
spec's decision D29 (log 25), the slice's layout general knowledge (D11, D12, G2; log 17). -/
def Obligations.HeadersProposeTheFormat : Prop :=
  ∀ (s : State) (more b : Buffer) (others : List Buffer) (fmt : SampleFormat), Active s →
    IsStreamInfo b → (sliceWidth b).toNat = formatBits fmt →
    let f := assembledFormat s.params.layout (sliceDescriptor b) fmt
    exec (.headers ((s.params.identTag.toList ++ more) :: b :: others)) s =
      .next { s with
        desc := some (sliceDescriptor b)
        fmt := some f
        answer := some (okNoOutput none 0 [.negotiate f]) }

/-- R198, R231: every failure of HEADERS is silent and leaves S as it was: too few buffers, a tag that
is short or wrong, a slice that does not parse, an unsupported width. The steps are the spec's decision
D29 (log 25); what a slice is and where its width stands is general knowledge (D11, D12, G2; log 17). -/
def Obligations.HeadersFailQuietly : Prop :=
  ∀ (s : State) (hdrs : List Buffer), Active s →
    (hdrs.length < 2 ∨ (hdrs.getD 0 []).length < 8 ∨
      (hdrs.getD 0 []).take 8 ≠ s.params.identTag.toList ∨ ¬ IsStreamInfo (hdrs.getD 1 []) ∨
      (∀ fmt, (sliceWidth (hdrs.getD 1 [])).toNat ≠ formatBits fmt)) →
    exec (.headers hdrs) s = .next { s with answer := some (okNoOutput none 0 []) }

/-! ## Internal operations on their own -/

/-- R121 to R126, R129: CLASSIFY answers one class by the priority table, or aborts on the two short
buffers, and reads nothing of S but MARKER's parameter. Each class's condition is the one of R54. The
abort is the spec's decision D16 (log 24), byte 0 alone and the whole marker its D14 and D15 (log 25). That
CLASSIFY on its own latches whatever the session bit is, is log 10, and in the place of a reason already
latched log 27. -/
def Obligations.ClassifyAnswersByPriority : Prop :=
  ∀ (s : State) (b : Buffer),
    (Buffer.isTooShort b = true →
      exec (.classify b) s = .next { s with
        aborted := some .shortBuffer, answer := some (.result (.abort .shortBuffer)) }) ∧
    ∀ c, (classRow c b).wellFormed s.params.marker = true →
      exec (.classify b) s = .next { s with answer := some (.result (.cls c)) }

/-- R129: exactly one of the five outcomes' conditions holds of every buffer. The two short buffers are
the spec's decision D16 (log 24), byte 0 alone and the whole marker its D14 and D15 (log 25). -/
def Obligations.ClassConditionsAreExclusiveAndTotal : Prop :=
  ∀ (m : Vector Byte 4) (b : Buffer),
    (Buffer.isTooShort b = true ∧ ∀ c, (classRow c b).wellFormed m = false) ∨
      (Buffer.isTooShort b = false ∧ ∃! c, (classRow c b).wellFormed m = true)

/-- R125: a buffer that is not the marker is an AudioFrame exactly if its first byte is `0xFF` and its
second byte's high 6 bits are `0b111110`, whatever its low 2 bits and the other bytes are. -/
def Obligations.SyncPatternIsTheAudioFrame : Prop :=
  ∀ (s : State) (b0 b1 : Byte) (rest : Buffer), b0 :: b1 :: rest ≠ s.params.marker.toList →
    (exec (.classify (b0 :: b1 :: rest)) s =
        .next { s with answer := some (.result (.cls .audioFrame)) } ↔
      b0 = 0xFF#8 ∧ b1.extractLsb' 2 6 = 0b111110#6)

/-- R82: a slice shorter than 38 bytes raises MalformedStreamInfo, whatever its bytes, the empty slice
among them. -/
def Obligations.ShortSliceIsMalformed : Prop :=
  ∀ (s : State) (b : Buffer), b.length < 38 →
    exec (.parseStreamInfo b) s =
      .next { s with answer := some (.result (.error .malformedStreamInfo none)) }

/-- R81, R83 to R85, R57: PARSE_STREAMINFO past the length check: a wrong tag is malformed, a surplus
after a right tag is TrailingOrTruncatedData, and a slice of 38 bytes gives the descriptor by R57's
formulas, unvalidated (R86). The tag's content and the checks' order are the spec's decisions D12, D13,
the slice's layout general knowledge (D11, G2; log 17). -/
def Obligations.ParseReadsTheSliceByItsBytes : Prop :=
  ∀ (s : State) (b : Buffer), 38 ≤ b.length →
    let tagged := (byteAt b 0).extractLsb' 0 7 = 0#7 ∧
      byteAt b 1 = 0#8 ∧ byteAt b 2 = 0#8 ∧ byteAt b 3 = 34#8
    (¬ tagged → exec (.parseStreamInfo b) s =
      .next { s with answer := some (.result (.error .malformedStreamInfo none)) }) ∧
    (tagged → 38 < b.length → exec (.parseStreamInfo b) s =
      .next { s with answer := some (.result (.error .trailingOrTruncatedData none)) }) ∧
    (tagged → b.length = 38 → exec (.parseStreamInfo b) s =
      .next { s with answer := some (.result (.descriptor (sliceDescriptor b))) })

/-- R85, R89 (the spec's decision D34): the last-block flag, block sizes, frame sizes, total and
checksum do not matter: slices of one length that agree on the other bits parse the same. Which bytes are
kept is general knowledge (D11, G2; log 17). -/
def Obligations.DiscardedFieldsDoNotMatter : Prop :=
  ∀ (s : State) (b b' : Buffer), b.length = b'.length →
    (byteAt b 0).extractLsb' 0 7 = (byteAt b' 0).extractLsb' 0 7 →
    (∀ k ∈ [1, 2, 3, 14, 15, 16], byteAt b k = byteAt b' k) →
    (byteAt b 17).extractLsb' 4 4 = (byteAt b' 17).extractLsb' 4 4 →
    exec (.parseStreamInfo b) s = exec (.parseStreamInfo b') s

/-- R100, R102, R103: LAYOUT_LOOKUP with 1 to 8 gives exactly the first `n` entries of row `n - 1`, none of
them Invalid and the source's two for two channels under a LAYOUT that meets R102 and R103, and
changes nothing; with another count it is refused, the form U6 asks for of the two R100 leaves a model
(log 13). -/
def Obligations.LayoutLookupGivesTheRow : Prop :=
  ∀ (s : State) (n : BitVec 4),
    (1 ≤ n.toNat ∧ n.toNat ≤ 8 →
      ∃ ps, exec (.layoutLookup n) s = .next { s with answer := some (.result (.layout ps)) } ∧
        ps.length = n.toNat ∧
        (∀ (r k : Fin 8), r.val + 1 = n.toNat → k.val < n.toNat →
          ps[k.val]? = some (s.params.layout[r][k])) ∧
        (s.params.layout.Ok → Position.invalid ∉ ps ∧
          (n = 2#4 → ps = [.frontLeft, .frontRight]))) ∧
    (n.toNat = 0 ∨ 8 < n.toNat → exec (.layoutLookup n) s = .refused .layoutOutsideDomain)

/-- R112 to R114, R116, R117: RESOLVE_FORMAT on every descriptor: a supported width and a channel count
of 1 to 8 give the assembled format with the width's tag, any other width UnsupportedSampleWidth, a
supported width with any other count UnsupportedChannelCount, exactly one of the three; nothing else
changes. That the width decides where both are out of range is the spec's decision D17 (R117, log 25);
that a count of 0 is an unsupported one is its reading of 90_conflicts.md C4. -/
def Obligations.ResolverIsTotalOnItsDomain : Prop :=
  ∀ (s : State) (d : StreamDescriptor),
    (∀ fmt, d.bitsPerSample.toNat = formatBits fmt →
      (1 ≤ d.channelCount.toNat ∧ d.channelCount.toNat ≤ 8 →
        exec (.resolveFormat d) s = .next { s with
          answer := some (.result (.format (assembledFormat s.params.layout d fmt))) }) ∧
      (¬ (1 ≤ d.channelCount.toNat ∧ d.channelCount.toNat ≤ 8) →
        exec (.resolveFormat d) s = .next { s with
          answer := some (.result (.error .unsupportedChannelCount none)) })) ∧
    ((∀ fmt, d.bitsPerSample.toNat ≠ formatBits fmt) →
      exec (.resolveFormat d) s = .next { s with
        answer := some (.result (.error .unsupportedSampleWidth none)) })

/-- R118: nine channels with a supported width. -/
def Obligations.NineChannelsAreRejected : Prop :=
  ∀ (s : State) (rate : BitVec 20) (fmt : SampleFormat),
    exec (.resolveFormat
        { sampleRate := rate, channelCount := 9#4,
          bitsPerSample := BitVec.ofNat 6 (formatBits fmt) }) s =
      .next { s with answer := some (.result (.error .unsupportedChannelCount none)) }

/-- R142 to R147: DECODE_FRAME invoked on its own under a descriptor in range, for every answer of the
primitive. The shape check and its place are the spec's decision D25, the missing check of NoFrame D32
(log 25), the latch D19 (log 23). That DECODE_FRAME on its own latches whatever the session bit is, is log
10, in the place of a reason already latched log 27, and that it runs on every buffer log 29. -/
def Obligations.DecodeFrameFollowsThePrimitive : Prop :=
  ∀ (s : State) (b : Buffer) (d : StreamDescriptor) (f : OutputFormat),
    s.desc = some d → s.fmt = some f → DescriptorInRange d →
    (primitive s.params b d.channelCount.toNat = .noFrame →
      exec (.decodeFrame b) s = .next { s with answer := some (.result .noOutput) }) ∧
    (∀ detail, primitive s.params b d.channelCount.toNat = .fail detail →
      exec (.decodeFrame b) s =
        .next { s with answer := some (.result (.error .frameDecodeError (some detail))) }) ∧
    (∀ fr k, primitive s.params b d.channelCount.toNat = .frame fr k →
      (k ≠ b.length → exec (.decodeFrame b) s = .next { s with
        aborted := some .lengthMismatch, answer := some (.result (.abort .lengthMismatch)) }) ∧
      (k = b.length → (∃ n, HasShape d.channelCount.toNat n fr) →
        exec (.decodeFrame b) s = .next { s with answer := some (.result (.frame fr)) }) ∧
      (k = b.length → (∀ n, ¬ HasShape d.channelCount.toNat n fr) →
        exec (.decodeFrame b) s = .next { s with
          aborted := some .frameShape, answer := some (.result (.abort .frameShape)) }))

/-- R161: INTERLEAVE of `C ≥ 1` arrays of `N` samples gives `N*C` samples, channel `c`'s sample `i` at
position `i*C + c`; one array is given as it is; nothing else changes. -/
def Obligations.InterleaveTransposesTheFrame : Prop :=
  ∀ (s : State) (f : Frame) (n : Nat), 1 ≤ f.length → HasShape f.length n f →
    ∃ v, exec (.interleave f) s = .next { s with answer := some (.result (.samples v)) } ∧
      v.length = n * f.length ∧
      (∀ i, i < n → ∀ c, c < f.length →
        v[i * f.length + c]? = some ((f.getD c []).getD i 0#32)) ∧
      (∀ a, f = [a] → v = a)

/-- R176, U7 (log 13): INTERLEAVE and the REPACK forms on no array or on arrays of unequal length are
refused. -/
def Obligations.RaggedFramesAreRefused : Prop :=
  ∀ (s : State) (f : Frame), f = [] ∨ (∀ n, ¬ HasShape f.length n f) →
    exec (.interleave f) s = .refused .frameNotRectangular ∧
      exec (.repackS8 f) s = .refused .frameNotRectangular ∧
      exec (.repackS16 f) s = .refused .frameNotRectangular ∧
      exec (.repackS24in32 f) s = .refused .frameNotRectangular ∧
      exec (.repackS32 f) s = .refused .frameNotRectangular

/-- R162, R163: NARROW of `M` values gives `M*W` bytes, value `k`'s container at `k*W` with no padding,
its bytes those of the low 8 or 16 bits or of the whole pattern in OUT_ENDIAN; nothing else changes. For a
value outside its container's range, or outside 24 bits, the bytes are the spec's decisions D24 and D33
(log 19). -/
def Obligations.NarrowWritesContiguousContainers : Prop :=
  ∀ (s : State) (fmt : SampleFormat) (v : List Sample),
    ∃ out, exec (.narrow fmt v) s = .next { s with answer := some (.result (.bytes out)) } ∧
      out.length = v.length * containerWidth fmt ∧
      ∀ k, k < v.length → ∀ j, j < containerWidth fmt →
        out[k * containerWidth fmt + j]? =
          some (containerByte s.params.outEndian (containerWidth fmt) (v.getD k 0#32) j)

/-- R168 to R171: each REPACK form on `C ≥ 1` arrays of equal length completes with the output of R166
in its own format, and changes nothing else. For a sample outside its container's range, or outside 24
bits, the bytes are the spec's decisions D24 and D33 (log 19). -/
def Obligations.RepackFormsLayOutTheFrame : Prop :=
  ∀ (s : State) (f : Frame) (n : Nat), 1 ≤ f.length → HasShape f.length n f →
    (∃ out, IsOutputOf s.params.outEndian .s8 f out ∧
      exec (.repackS8 f) s = .next { s with answer := some (.result (.bytes out)) }) ∧
    (∃ out, IsOutputOf s.params.outEndian .s16 f out ∧
      exec (.repackS16 f) s = .next { s with answer := some (.result (.bytes out)) }) ∧
    (∃ out, IsOutputOf s.params.outEndian .s24in32 f out ∧
      exec (.repackS24in32 f) s = .next { s with answer := some (.result (.bytes out)) }) ∧
    (∃ out, IsOutputOf s.params.outEndian .s32 f out ∧
      exec (.repackS32 f) s = .next { s with answer := some (.result (.bytes out)) })

/-- R172, generalised as T4: for every format, byte order and frame of at least one array, all of one
length, whose samples fit the container, the REPACK form completes, and reading its output back and
de-interleaving gives the frame: container `i*C + c` reads as channel `c`'s sample `i`. For one channel of
16-bit samples it is the source's round trip; the rest is the spec's inference, on two's complement (G5). -/
def Obligations.RepackedSamplesReadBack : Prop :=
  ∀ (s : State) (fmt : SampleFormat) (f : Frame) (n : Nat), 1 ≤ f.length → HasShape f.length n f →
    (∀ a ∈ f, ∀ x ∈ a, FitsContainer fmt x) →
    ∃ out, exec (repackRow fmt f) s = .next { s with answer := some (.result (.bytes out)) } ∧
      ∀ i, i < n → ∀ c, c < f.length →
        readBack s.params.outEndian fmt out (i * f.length + c) =
          ((f.getD c []).getD i 0#32).toInt

/-- R164 (the spec's decision D24, log 19): a sample that does not fit wraps: container `k` of a NARROW reads
back as the sample modulo 2^(8W), in the signed range. -/
def Obligations.NarrowWrapsAndNeverSaturates : Prop :=
  ∀ (s : State) (fmt : SampleFormat) (v : List Sample),
    ∃ out, exec (.narrow fmt v) s = .next { s with answer := some (.result (.bytes out)) } ∧
      ∀ k, k < v.length →
        readBack s.params.outEndian fmt out k =
          (v.getD k 0#32).toInt.bmod (2 ^ (8 * containerWidth fmt))

/-- R165 (the spec's decision D33, log 19): the 24-bit and the 32-bit form give the same bytes. -/
def Obligations.TwentyFourBitIsWrittenAsThirtyTwo : Prop :=
  ∀ (s : State) (f : Frame) (v : List Sample),
    exec (.repackS24in32 f) s = exec (.repackS32 f) s ∧
      exec (.narrow .s24in32 v) s = exec (.narrow .s32 v) s

/-! ## Invariants and whole-machine rules -/

/-- R13 holds at reset (the reset values are the spec's decision D27, log 15). -/
def Obligations.SessionInvariantHoldsAtReset : Prop := SessionInv State.reset

/-- R13 items 1 (its stream fields) to 4 are kept by every step, a test bench's among them. -/
def Obligations.StepKeepsStreamInvariant : Prop :=
  ∀ s t : State, StreamInv s → step s = .next t → StreamInv t

/-- R13 items 1 to 4 whole are kept by every step that is a host command. -/
def Obligations.HostCommandsKeepSessionInvariant : Prop :=
  ∀ (s t : State) (p : Packet) (rest : List Packet), SessionInv s → s.pending = p :: rest →
    p.isCommand = true → step s = .next t → SessionInv t

/-- R271, R190: under the invariant every host command and every class row completes. That the primitive
always answers is the spec's decision D28 (log 5). -/
def Obligations.EveryHostCommandReturns : Prop :=
  ∀ (s : State) (i : Instr), StreamInv s → (i.isGuarded = true ∨ i = .start ∨ i = .stop) →
    ∃ t, exec i s = .next t

/-- R261, R5: no step writes a parameter. That the state holds them is log 4. -/
def Obligations.StepNeverWritesTheParameters : Prop :=
  ∀ s t : State, step s = .next t → t.params = s.params

/-- The frame of R13 item 5 and T6: what is no START, no STOP, no HEADERS and no PUSH of a
MetadataHeader leaves the descriptor, the format and the session bit unchanged, and no operation
touches the commands outstanding or the parameters. -/
def Obligations.OnlyHeadersChangeDescriptorAndFormat : Prop :=
  ∀ (s t : State) (i : Instr), exec i s = .next t →
    t.pending = s.pending ∧ t.params = s.params ∧
      (i ≠ .start → i ≠ .stop → t.session = s.session ∧
        ((∀ hs, i ≠ .headers hs) → (∀ b, i ≠ .classMetadataHeader b) →
          (∀ b, i = .push b → classify s.params.marker b ≠ .ok .metadataHeader) →
          t.desc = s.desc ∧ t.fmt = s.fmt))

/-- The frame of the internal operations invoked on their own (R4): all but CLASSIFY and DECODE_FRAME
change the answer alone; these two may latch an abort besides, whatever the session bit is (log 10) and in
the place of a reason already latched (log 27). The answer field is log 3. -/
def Obligations.InternalOperationsChangeOnlyTheirAnswer : Prop :=
  ∀ (s t : State) (i : Instr), i.isInternal = true → exec i s = .next t →
    t = { s with aborted := t.aborted, answer := t.answer } ∧
      (∃ r, t.answer = some (.result r) ∧
        (t.aborted = s.aborted ∨ ∃ a, r = .abort a ∧ t.aborted = some a)) ∧
      ((∀ b, i ≠ .classify b) → (∀ b, i ≠ .decodeFrame b) → t.aborted = s.aborted)

/-- T2, R144: under the invariant no step latches ChannelRange or WidthRange. -/
def Obligations.RangeAbortsAreUnreachable : Prop :=
  ∀ s t : State, StreamInv s → step s = .next t →
    (t.aborted = some .channelRange → s.aborted = some .channelRange) ∧
      (t.aborted = some .widthRange → s.aborted = some .widthRange)

/-- T8, R39, R199, R197 (the counts are the spec's decision D21): every response has an output buffer
exactly if its status is OK_OUTPUT, then no event; at most one event, and only with OK_NO_OUTPUT; and
the count is 1 exactly for a PUSH that ended normally or with an error. -/
def Obligations.ResponsesHaveAtMostOneOutputOrEvent : Prop :=
  ∀ (s t : State) (i : Instr) (r : Response), exec i s = .next t →
    t.answer = some (.response r) → i.isInternal = false →
    (r.out.isSome = true ↔ r.status = .okOutput) ∧ r.events.length ≤ 1 ∧
      (r.events ≠ [] → r.status = .okNoOutput) ∧
      (r.status = .error ↔ r.error.isSome = true) ∧
      (r.status = .abort ↔ r.abortReason.isSome = true) ∧
      (r.consumed = 1 ↔
        (i ≠ .start ∧ i ≠ .stop ∧ (∀ hs, i ≠ .headers hs)) ∧
          r.status ≠ .abort ∧ r.status ≠ .noSession) ∧ r.consumed ≤ 1

/-- R227, R240: an abort is entered only from Active, and the transitions of the condition are those of
R240, for every host command. The session bit is the spec's decision D22, the latch its D19 (log 23). -/
def Obligations.ConditionMovesAsStated : Prop :=
  ∀ (s t : State) (i : Instr), exec i s = .next t →
    (i = .start → t.condition = .active) ∧ (i = .stop → t.condition = .idle) ∧
      (i.isGuarded = true →
        (s.condition = .idle → t.condition = .idle ∧ t.aborted = s.aborted) ∧
        (s.condition = .aborted → t.condition = .aborted ∧ t.aborted = s.aborted) ∧
        (s.condition = .active → t.condition = .active ∨ t.condition = .aborted))

/-- R44, R41: a header's change is in force for the very next command: of two PUSHes outstanding, a
STREAMINFO slice and an audio frame, the second is decoded and repacked under the first's descriptor
and format. The slice's layout, and so the descriptor stored, is the spec's from general knowledge (D11,
D12, G2; log 17), the bytes of a sample out of range its D24 and D33 (log 19), the response's count its
D21 (log 23); the list of outstanding commands is the model's (log 1). -/
def Obligations.HeaderIsInForceForTheNextCommand : Prop :=
  ∀ (s : State) (hdr b : Buffer) (rest : List Packet) (fmt : SampleFormat) (fr : Frame) (n : Nat),
    Active s → IsStreamInfo hdr → (sliceWidth hdr).toNat = formatBits fmt →
    (Instr.classAudioFrame b).wellFormed s.params.marker = true →
    s.pending = .command 2#2 [hdr] :: .command 2#2 [b] :: rest →
    primitive s.params b (sliceChannels hdr).toNat = .frame fr b.length →
    HasShape (sliceChannels hdr).toNat n fr →
    ∃ out, IsOutputOf s.params.outEndian fmt fr out ∧
      Sys2Proof.core.run 2 s =
        .next { s with
          desc := some (sliceDescriptor hdr)
          fmt := some (assembledFormat s.params.layout (sliceDescriptor hdr) fmt)
          pending := rest
          answer := some (outputAnswer out) }

/-! ## The register view -/

/-- R22, R21 (the view is the spec's decision D37, log 18): the bits of STATUS. -/
def Obligations.StatusRegisterShowsTheState : Prop :=
  ∀ s : State, s.readStatus.getLsbD 0 = s.session ∧
    s.readStatus.getLsbD 1 = s.fmt.isSome ∧ s.readStatus.getLsbD 2 = s.aborted.isSome ∧
    (s.aborted = none → s.readStatus.extractLsb' 3 3 = 0#3) ∧
    (∀ a, s.aborted = some a → s.readStatus.extractLsb' 3 3 = a.code)

/-- R22 (D37, log 18): DESC, FMT and LAYOUTREG while negotiated, and the fault of reading one while not.
With a format and no descriptor, which R13 item 2 excludes, reading DESC is that fault too, the model's
choice (log 28). -/
def Obligations.DescriptorRegistersShowTheState : Prop :=
  ∀ s : State,
    (s.fmt = none → s.readDesc = .error .registerUnspecified ∧
      s.readFmt = .error .registerUnspecified ∧ s.readLayoutReg = .error .registerUnspecified) ∧
    (∀ d f, s.desc = some d → s.fmt = some f →
      ∃ wd wf wl, s.readDesc = .ok wd ∧ s.readFmt = .ok wf ∧ s.readLayoutReg = .ok wl ∧
        wd.extractLsb' 0 20 = d.sampleRate ∧ wd.extractLsb' 20 4 = d.channelCount ∧
        wd.extractLsb' 24 6 = d.bitsPerSample ∧ wf.extractLsb' 0 2 = f.sampleFormat.code ∧
        wf.getLsbD 2 = true ∧
        ∀ k, k < 8 → wl.extractLsb' (4 * k) 4 = positionCode (f.channelLayout.getD k .invalid)) ∧
    (∀ f, s.fmt = some f → s.desc = none → s.readDesc = .error .registerUnspecified)

end
end

