-- ==== Sys2Proof/Laws/State.lean ====
section
/-! SUPPORT. One lemma per field per update of the state, and what each shared operation over the state
can answer, so that no later proof unfolds one. -/

namespace Sys2Proof.Machine

variable (s : State)

/-! ### `State.respond` -/

@[simp] theorem State.respond_session (r : Response) : (s.respond r).session = s.session := rfl
@[simp] theorem State.respond_aborted (r : Response) : (s.respond r).aborted = s.aborted := rfl
@[simp] theorem State.respond_desc (r : Response) : (s.respond r).desc = s.desc := rfl
@[simp] theorem State.respond_fmt (r : Response) : (s.respond r).fmt = s.fmt := rfl
@[simp] theorem State.respond_params (r : Response) : (s.respond r).params = s.params := rfl
@[simp] theorem State.respond_pending (r : Response) : (s.respond r).pending = s.pending := rfl
@[simp] theorem State.respond_answer (r : Response) : (s.respond r).answer = some (.response r) := rfl

/-! ### `State.report` -/

@[simp] theorem State.report_session (r : OpResult) : (s.report r).session = s.session := rfl
@[simp] theorem State.report_aborted (r : OpResult) : (s.report r).aborted = s.aborted := rfl
@[simp] theorem State.report_desc (r : OpResult) : (s.report r).desc = s.desc := rfl
@[simp] theorem State.report_fmt (r : OpResult) : (s.report r).fmt = s.fmt := rfl
@[simp] theorem State.report_params (r : OpResult) : (s.report r).params = s.params := rfl
@[simp] theorem State.report_pending (r : OpResult) : (s.report r).pending = s.pending := rfl
@[simp] theorem State.report_answer (r : OpResult) : (s.report r).answer = some (.result r) := rfl

/-! ### `State.emptied` -/

@[simp] theorem State.emptied_session (b : Bool) : (s.emptied b).session = b := rfl
@[simp] theorem State.emptied_aborted (b : Bool) : (s.emptied b).aborted = none := rfl
@[simp] theorem State.emptied_desc (b : Bool) : (s.emptied b).desc = none := rfl
@[simp] theorem State.emptied_fmt (b : Bool) : (s.emptied b).fmt = none := rfl
@[simp] theorem State.emptied_params (b : Bool) : (s.emptied b).params = s.params := rfl
@[simp] theorem State.emptied_pending (b : Bool) : (s.emptied b).pending = s.pending := rfl
@[simp] theorem State.emptied_answer (b : Bool) : (s.emptied b).answer = s.answer := rfl

/-! ### `State.storeFormat` -/

@[simp] theorem State.storeFormat_session (d : StreamDescriptor) (f : OutputFormat) : (s.storeFormat d f).session = s.session := rfl
@[simp] theorem State.storeFormat_aborted (d : StreamDescriptor) (f : OutputFormat) : (s.storeFormat d f).aborted = s.aborted := rfl
@[simp] theorem State.storeFormat_desc (d : StreamDescriptor) (f : OutputFormat) : (s.storeFormat d f).desc = some d := rfl
@[simp] theorem State.storeFormat_fmt (d : StreamDescriptor) (f : OutputFormat) : (s.storeFormat d f).fmt = some f := rfl
@[simp] theorem State.storeFormat_params (d : StreamDescriptor) (f : OutputFormat) : (s.storeFormat d f).params = s.params := rfl
@[simp] theorem State.storeFormat_pending (d : StreamDescriptor) (f : OutputFormat) : (s.storeFormat d f).pending = s.pending := rfl
@[simp] theorem State.storeFormat_answer (d : StreamDescriptor) (f : OutputFormat) : (s.storeFormat d f).answer = s.answer := rfl

/-! ### `State.latch` -/

@[simp] theorem State.latch_session (a : AbortReason) : (s.latch a).session = s.session := rfl
@[simp] theorem State.latch_aborted (a : AbortReason) : (s.latch a).aborted = some a := rfl
@[simp] theorem State.latch_desc (a : AbortReason) : (s.latch a).desc = s.desc := rfl
@[simp] theorem State.latch_fmt (a : AbortReason) : (s.latch a).fmt = s.fmt := rfl
@[simp] theorem State.latch_params (a : AbortReason) : (s.latch a).params = s.params := rfl
@[simp] theorem State.latch_pending (a : AbortReason) : (s.latch a).pending = s.pending := rfl
@[simp] theorem State.latch_answer (a : AbortReason) : (s.latch a).answer = s.answer := rfl

/-! ### `State.taken` -/

@[simp] theorem State.taken_session (ps : List Packet) : (s.taken ps).session = s.session := rfl
@[simp] theorem State.taken_aborted (ps : List Packet) : (s.taken ps).aborted = s.aborted := rfl
@[simp] theorem State.taken_desc (ps : List Packet) : (s.taken ps).desc = s.desc := rfl
@[simp] theorem State.taken_fmt (ps : List Packet) : (s.taken ps).fmt = s.fmt := rfl
@[simp] theorem State.taken_params (ps : List Packet) : (s.taken ps).params = s.params := rfl
@[simp] theorem State.taken_pending (ps : List Packet) : (s.taken ps).pending = ps := rfl
@[simp] theorem State.taken_answer (ps : List Packet) : (s.taken ps).answer = s.answer := rfl

/-! ### `State.takeError` -/

@[simp] theorem State.takeError_session (c : BufClass) (e : ErrorName) (i : Option Detail) : (s.takeError c e i).session = s.session := rfl
@[simp] theorem State.takeError_aborted (c : BufClass) (e : ErrorName) (i : Option Detail) : (s.takeError c e i).aborted = s.aborted := rfl
@[simp] theorem State.takeError_desc (c : BufClass) (e : ErrorName) (i : Option Detail) : (s.takeError c e i).desc = s.desc := rfl
@[simp] theorem State.takeError_fmt (c : BufClass) (e : ErrorName) (i : Option Detail) : (s.takeError c e i).fmt = s.fmt := rfl
@[simp] theorem State.takeError_params (c : BufClass) (e : ErrorName) (i : Option Detail) : (s.takeError c e i).params = s.params := rfl
@[simp] theorem State.takeError_pending (c : BufClass) (e : ErrorName) (i : Option Detail) : (s.takeError c e i).pending = s.pending := rfl
@[simp] theorem State.takeError_answer (c : BufClass) (e : ErrorName) (i : Option Detail) : (s.takeError c e i).answer = some (.response (.raised c e i)) := rfl

/-! ### `State.takeAbort` -/

@[simp] theorem State.takeAbort_session (a : AbortReason) : (s.takeAbort a).session = s.session := rfl
@[simp] theorem State.takeAbort_aborted (a : AbortReason) : (s.takeAbort a).aborted = some a := rfl
@[simp] theorem State.takeAbort_desc (a : AbortReason) : (s.takeAbort a).desc = s.desc := rfl
@[simp] theorem State.takeAbort_fmt (a : AbortReason) : (s.takeAbort a).fmt = s.fmt := rfl
@[simp] theorem State.takeAbort_params (a : AbortReason) : (s.takeAbort a).params = s.params := rfl
@[simp] theorem State.takeAbort_pending (a : AbortReason) : (s.takeAbort a).pending = s.pending := rfl
@[simp] theorem State.takeAbort_answer (a : AbortReason) : (s.takeAbort a).answer = some (.response (.aborting a)) := rfl

/-! ### The record after an update, written out -/

theorem State.respond_eq (r : Response) :
    s.respond r = { s with answer := some (.response r) } := rfl

theorem State.report_eq (r : OpResult) : s.report r = { s with answer := some (.result r) } := rfl

theorem State.takeError_eq (c : BufClass) (e : ErrorName) (i : Option Detail) :
    s.takeError c e i = { s with answer := some (.response (.raised c e i)) } := rfl

theorem State.takeAbort_eq (a : AbortReason) :
    s.takeAbort a = { s with aborted := some a, answer := some (.response (.aborting a)) } := rfl

theorem State.taken_eq (rest : List Packet) : s.taken rest = { s with pending := rest } := rfl

/-! ### The guards -/

variable {s}

theorem guarded_of_noSession {body : State → Result} (h : s.session = false) :
    guarded s body = .next (s.respond .noSession) := by simp [guarded, h]

theorem guarded_of_aborted {body : State → Result} {a : AbortReason} (h : s.session = true)
    (ha : s.aborted = some a) : guarded s body = .next (s.respond (.aborting a)) := by
  simp [guarded, h, ha]

theorem guarded_of_active {body : State → Result} (h : s.session = true) (ha : s.aborted = none) :
    guarded s body = body s := by simp [guarded, h, ha]

/-- Everything the guards can do. -/
theorem guarded_cases (body : State → Result) :
    (s.session = false ∧ guarded s body = .next (s.respond .noSession)) ∨
      (∃ a, s.session = true ∧ s.aborted = some a ∧
        guarded s body = .next (s.respond (.aborting a))) ∨
      (s.session = true ∧ s.aborted = none ∧ guarded s body = body s) := by
  cases h : s.session
  · exact .inl ⟨rfl, guarded_of_noSession h⟩
  · cases ha : s.aborted with
    | none => exact .inr (.inr ⟨rfl, rfl, guarded_of_active h ha⟩)
    | some a => exact .inr (.inl ⟨a, rfl, rfl, guarded_of_aborted h ha⟩)

/-! ### An operation invoked on its own -/

/-- Everything `conclude` can do. -/
theorem State.conclude_cases {α : Type} (r : Ending α) (f : α → OpResult) :
    (∃ a, r = .done a ∧ s.conclude r f = s.report (f a)) ∨
      (∃ e i, r = .raise e i ∧ s.conclude r f = s.report (.error e i)) ∨
      (∃ a, r = .abort a ∧ s.conclude r f = (s.latch a).report (.abort a)) := by
  cases r with
  | done a => exact .inl ⟨a, rfl, rfl⟩
  | raise e i => exact .inr (.inl ⟨e, i, rfl, rfl⟩)
  | abort a => exact .inr (.inr ⟨a, rfl, rfl⟩)

@[simp] theorem State.conclude_session {α : Type} (r : Ending α) (f : α → OpResult) :
    (s.conclude r f).session = s.session := by cases r <;> rfl
@[simp] theorem State.conclude_desc {α : Type} (r : Ending α) (f : α → OpResult) :
    (s.conclude r f).desc = s.desc := by cases r <;> rfl
@[simp] theorem State.conclude_fmt {α : Type} (r : Ending α) (f : α → OpResult) :
    (s.conclude r f).fmt = s.fmt := by cases r <;> rfl
@[simp] theorem State.conclude_params {α : Type} (r : Ending α) (f : α → OpResult) :
    (s.conclude r f).params = s.params := by cases r <;> rfl
@[simp] theorem State.conclude_pending {α : Type} (r : Ending α) (f : α → OpResult) :
    (s.conclude r f).pending = s.pending := by cases r <;> rfl

/-! ### The packet a table word is stored as -/

theorem State.withPacket_pending (p : Packet) : (s.withPacket p).pending = p :: s.pending := by
  cases p <;> rfl

end Sys2Proof.Machine
end

