-- ==== Sys2Proof/Laws/Bytes.lean ====
section
/-! SUPPORT. Reading bytes and bit fields of a buffer, and reading containers: one spec lemma per
reader. -/

namespace Sys2Proof.Machine

/-- `memRead` of three bytes is the big-endian concatenation (R32). -/
theorem memRead_three (b : Buffer) (off : Nat) :
    memRead b off 3 = byteAt b off ++ byteAt b (off + 1) ++ byteAt b (off + 2) := by
  have h0 : (0#0 ++ byteAt b off : BitVec (0 + 8)) = byteAt b off := by
    have := BitVec.toNat_append (0#0) (byteAt b off)
    apply BitVec.eq_of_toNat_eq
    rw [this]
    simp
  simp only [memRead, Nat.add_zero]
  exact congrArg (fun w : BitVec 8 => w ++ byteAt b (off + 1) ++ byteAt b (off + 2)) h0

/-- The low-seven-bits test as a mask (R52). -/
theorem mask_seven_iff (x : Byte) : x &&& 0x7F#8 = 0x00#8 ↔ x.extractLsb' 0 7 = 0#7 := by
  revert x; decide

/-- The high-six-bits test as a mask (R53). -/
theorem mask_sync_iff (x : Byte) : x &&& 0xFC#8 = 0xF8#8 ↔ x.extractLsb' 2 6 = 0b111110#6 := by
  revert x; decide

theorem concat_three_eq_34 (x y z : Byte) :
    (x ++ y ++ z : BitVec 24) = siBodyLen ↔ x = 0#8 ∧ y = 0#8 ∧ z = 34#8 := by
  constructor
  · intro h
    have hn := congrArg BitVec.toNat h
    simp only [BitVec.toNat_append, siBodyLen] at hn
    have hx := x.isLt; have hy := y.isLt; have hz := z.isLt
    rw [← Nat.shiftLeft_add_eq_or_of_lt hy, ← Nat.shiftLeft_add_eq_or_of_lt hz] at hn
    simp only [Nat.shiftLeft_eq, BitVec.toNat_ofNat] at hn
    refine ⟨?_, ?_, ?_⟩ <;> apply BitVec.eq_of_toNat_eq <;> simp only [BitVec.toNat_ofNat] <;> omega
  · rintro ⟨rfl, rfl, rfl⟩; rfl

/-- What the tag test says of the bytes (R83). -/
theorem tagOk_iff (b : Buffer) : tagOk b = true ↔
    (byteAt b 0).extractLsb' 0 7 = 0#7 ∧ byteAt b 1 = 0#8 ∧ byteAt b 2 = 0#8 ∧
      byteAt b 3 = 34#8 := by
  have h3 : memRead b 1 3 = siBodyLen ↔ byteAt b 1 = 0#8 ∧ byteAt b 2 = 0#8 ∧ byteAt b 3 = 34#8 := by
    rw [memRead_three]; exact concat_three_eq_34 _ _ _
  simp only [tagOk, Bool.and_eq_true, beq_iff_eq, mask_seven_iff, h3]

/-- A bit of a bit field: bit `i` of the result is the bit `n - 1 - i` places after the first
(R33). -/
theorem bitsRead_getLsbD (b : Buffer) (off n i : Nat) (h : i < n) :
    (bitsRead b off n).getLsbD i = bitAt b (off + (n - 1 - i)) := by
  induction n generalizing i with
  | zero => omega
  | succ n ih =>
    rw [bitsRead, BitVec.getLsbD_concat]
    cases i with
    | zero => simp
    | succ i =>
      simp only [Nat.add_eq_zero_iff, one_ne_zero, and_false, if_false, Nat.add_sub_cancel]
      rw [ih i (by omega)]
      congr 2; omega

/-- The three kept fields by R57's byte formulas. -/
theorem streamFields_eq (b : Buffer) : streamFields b = sliceDescriptor b := by
  have hr : bitsRead b 112 20 = sliceRate b := by
    apply BitVec.eq_of_getLsbD_eq
    intro i hi
    rw [bitsRead_getLsbD _ _ _ _ hi]
    interval_cases i <;> simp [bitAt, sliceRate]
  have hc : (bitsRead b 132 3).setWidth 4 = ((byteAt b 16 >>> 1) &&& 0x7#8).setWidth 4 := by
    apply BitVec.eq_of_getLsbD_eq
    intro i hi
    simp only [BitVec.getLsbD_setWidth, hi, decide_true, Bool.true_and]
    by_cases h3 : i < 3
    · rw [bitsRead_getLsbD _ _ _ _ h3]
      interval_cases i <;> simp [bitAt]
    · obtain rfl : i = 3 := by omega
      simp
  have hw : (bitsRead b 135 5).setWidth 6 =
      ((byteAt b 16 &&& 0x1#8).setWidth 6 <<< 4) ||| (byteAt b 17 >>> 4).setWidth 6 := by
    apply BitVec.eq_of_getLsbD_eq
    intro i hi
    simp only [BitVec.getLsbD_setWidth, hi, decide_true, Bool.true_and]
    by_cases h5 : i < 5
    · rw [bitsRead_getLsbD _ _ _ _ h5]
      interval_cases i <;> simp [bitAt]
    · obtain rfl : i = 5 := by omega
      simp
  simp only [streamFields, sliceDescriptor, sliceChannels, sliceWidth, hr, hc, hw]
  rfl

/-- Everything PARSE_STREAMINFO can answer (R82 to R85). -/
theorem parseStreamInfo_eq (b : Buffer) : parseStreamInfo b =
    if b.length < 38 then .error .malformedStreamInfo
    else if tagOk b = false then .error .malformedStreamInfo
    else if 38 < b.length then .error .trailingOrTruncatedData
    else .ok (sliceDescriptor b) := by
  simp only [parseStreamInfo, siLen, streamFields_eq, gt_iff_lt]

/-- PARSE_STREAMINFO succeeds exactly on a STREAMINFO slice. -/
theorem parseStreamInfo_ok_iff (b : Buffer) (d : StreamDescriptor) :
    parseStreamInfo b = .ok d ↔ IsStreamInfo b ∧ d = sliceDescriptor b := by
  rw [parseStreamInfo_eq]
  have ht := tagOk_iff b
  constructor
  · intro h
    split at h <;> rename_i h1
    · cases h
    split at h <;> rename_i h2
    · cases h
    split at h <;> rename_i h3
    · cases h
    injection h with h
    have := ht.1 (by simpa using h2)
    exact ⟨⟨by omega, this⟩, h.symm⟩
  · rintro ⟨⟨hl, h⟩, rfl⟩
    have := ht.2 h
    simp [hl, this]

/-! ### Containers -/

@[simp] theorem containerBytes_length (e : Endian) {n : Nat} (v : BitVec (8 * n)) :
    (containerBytes e v).length = n := by
  cases e <;> simp [containerBytes]

theorem containerBytes_getElem? (e : Endian) {n : Nat} (v : BitVec (8 * n)) (j : Nat) (h : j < n) :
    (containerBytes e v)[j]? =
      some (v.extractLsb' (8 * (match e with | .little => j | .big => n - 1 - j)) 8) := by
  cases e
  · simp [containerBytes, h]
  · simp only [containerBytes]
    rw [List.getElem?_reverse (by simpa using h), List.length_map, List.length_range,
      List.getElem?_map, List.getElem?_range (by omega)]
    rfl

/-- Container bytes of a narrowed sample, by the sample's own bytes (R162, R35). -/
theorem container_narrow_getElem? (e : Endian) (fmt : SampleFormat) (x : Sample) (j : Nat)
    (h : j < containerWidth fmt) :
    (containerBytes e (narrowSample fmt x))[j]? =
      some (containerByte e (containerWidth fmt) x j) := by
  rw [containerBytes_getElem? e _ j h]
  congr 1
  have key : ∀ k, k < containerWidth fmt →
      (narrowSample fmt x).extractLsb' (8 * k) 8 = x.extractLsb' (8 * k) 8 := by
    intro k hk
    apply BitVec.eq_of_getLsbD_eq
    intro i hi
    cases fmt <;> simp only [narrowSample, containerWidth, BitVec.getLsbD_extractLsb'] at hk ⊢
    · rw [BitVec.getLsbD_setWidth]
      have : 8 * k + i < 8 := by omega
      simp [this]
    · rw [BitVec.getLsbD_setWidth]
      have : 8 * k + i < 16 := by omega
      simp [this]
  cases e
  · exact key j h
  · exact key _ (by simp only; omega)

end Sys2Proof.Machine
end

