-- ==== Sys2Proof/Laws/Classifier.lean ====
section
/-! SUPPORT. CLASSIFY and the buffer decoder against the table of 30_encoding.md R54. -/

namespace Sys2Proof.Machine

/-- The marker test, length first. -/
theorem isMarker_iff (m : Vector Byte 4) (b : Buffer) :
    Buffer.isMarker m b = true ↔ b.length = 4 ∧ b = m.toList := by
  rw [Buffer.isMarker, beq_iff_eq]
  constructor
  · rintro rfl; exact ⟨by simp, rfl⟩
  · exact fun h => h.2

theorem marker_ne_short (m : Vector Byte 4) (b : Buffer) (h : Buffer.isTooShort b = true) :
    Buffer.isMarker m b = false := by
  rw [Bool.eq_false_iff]
  intro hm
  have := (isMarker_iff m b).1 hm
  simp only [Buffer.isTooShort, Bool.or_eq_true, beq_iff_eq] at h
  rcases h with rfl | rfl <;> simp at this

/-- The decoder's answer on a bare buffer is the row CLASSIFY names. -/
theorem decodeBuffer_eq (m : Vector Byte 4) (b : Buffer) : decodeBuffer m b =
    match classify m b with
    | .ok c => .ok (classRow c b)
    | .error _ => .error .shortBuffer := by
  unfold decodeBuffer classify
  cases b with
  | nil => simp
  | cons b0 rest =>
    by_cases hm : (b0 :: rest).length = 4 ∧ b0 :: rest = m.toList
    · rw [if_pos hm, if_neg (by simp), if_pos hm]; rfl
    rw [if_neg hm, if_neg (by simp), if_neg hm]
    by_cases h0 : b0 &&& 0x7F#8 = 0#8
    · simp [h0, byteAt, classRow]
    by_cases hF : b0 = 0xFF#8
    · subst hF
      cases rest with
      | nil => simp [byteAt]
      | cons b1 rest =>
        by_cases h1 : b1 &&& 0xFC#8 = 0xF8#8 <;> simp [h1, byteAt, classRow]
    · simp [h0, hF, byteAt, classRow]

/-- CLASSIFY's only abort is ShortBuffer, on the two short buffers (R122). -/
theorem classify_error_iff (m : Vector Byte 4) (b : Buffer) (a : AbortReason) :
    classify m b = .error a ↔ Buffer.isTooShort b = true ∧ a = .shortBuffer := by
  have hs : Buffer.isTooShort b = true ↔ b = [] ∨ b = [0xFF#8] := by simp [Buffer.isTooShort]
  rw [hs]
  unfold classify
  match b with
  | [] => simp [eq_comm]
  | [b0] =>
    by_cases h0 : b0 &&& 0x7F#8 = 0#8
    · have : b0 ≠ 0xFF#8 := by rintro rfl; simp at h0
      simp [byteAt, h0, this]
    · by_cases hF : b0 = 0xFF#8 <;> simp [byteAt, h0, hF, eq_comm]
  | b0 :: b1 :: rest =>
    have hlen : ¬ (b0 :: b1 :: rest).length < 2 := by simp
    have hz : ¬ (b0 :: b1 :: rest).length = 0 := by simp
    rw [if_neg hz, if_neg hlen]
    constructor
    · intro h; split_ifs at h
    · rintro ⟨h | h, _⟩ <;> simp at h

/-- CLASSIFY answers a class exactly on the buffers the table gives it (R54). -/
theorem classify_ok_iff (m : Vector Byte 4) (b : Buffer) (c : BufClass) :
    classify m b = .ok c ↔ (classRow c b).wellFormed m = true := by
  have hm := isMarker_iff m b
  have hsl : Buffer.isTooShort b = true ↔ b = [] ∨ b = [0xFF#8] := by simp [Buffer.isTooShort]
  by_cases hmk : b.length = 4 ∧ b = m.toList
  · have h1 : classify m b = .ok .streamMarker := by
      rw [classify, if_neg (by omega), if_pos hmk]
    have h2 := hm.2 hmk
    rw [h1]
    cases c <;> simp [classRow, Instr.wellFormed, h2]
  · have hnm : Buffer.isMarker m b = false := by
      rw [Bool.eq_false_iff]; exact fun h => hmk (hm.1 h)
    match b with
    | [] => cases c <;> simp [classify, classRow, Instr.wellFormed, hnm, Buffer.isTypeZero,
        Buffer.isSync, Buffer.isTooShort]
    | [b0] =>
      have ht : Buffer.isTypeZero [b0] = true ↔ b0 &&& 0x7F#8 = 0#8 := by
        rw [mask_seven_iff]; simp [Buffer.isTypeZero]
      have hsy : Buffer.isSync [b0] = false := rfl
      by_cases h0 : b0 &&& 0x7F#8 = 0#8
      · have h0' := ht.2 h0
        cases c <;> simp [classify, byteAt, h0, h0', classRow, Instr.wellFormed, hnm, hsy]
      · have h0' : Buffer.isTypeZero [b0] = false := by
          rw [Bool.eq_false_iff]; exact fun h => h0 (ht.1 h)
        by_cases hF : b0 = 0xFF#8
        · subst hF
          cases c <;> simp [classify, byteAt, classRow, Instr.wellFormed, hnm, hsy, h0',
            Buffer.isTooShort]
        · cases c <;> simp [classify, byteAt, h0, hF, classRow, Instr.wellFormed, hnm, hsy, h0',
            Buffer.isTooShort]
    | b0 :: b1 :: rest =>
      have ht : Buffer.isTypeZero (b0 :: b1 :: rest) = true ↔ b0 &&& 0x7F#8 = 0#8 := by
        rw [mask_seven_iff]; simp [Buffer.isTypeZero]
      have hsy : Buffer.isSync (b0 :: b1 :: rest) = true ↔ b0 = 0xFF#8 ∧ b1 &&& 0xFC#8 = 0xF8#8 := by
        rw [mask_sync_iff]; simp [Buffer.isSync]
      have hts : Buffer.isTooShort (b0 :: b1 :: rest) = false := by simp [Buffer.isTooShort]
      have hcl : classify m (b0 :: b1 :: rest) =
          if b0 &&& 0x7F#8 = 0#8 then .ok .metadataHeader
          else if b0 = 0xFF#8 then
            (if b1 &&& 0xFC#8 = 0xF8#8 then .ok .audioFrame else .ok .otherMetadataHeader)
          else .ok .otherMetadataHeader := by
        rw [classify, if_neg (by simp), if_neg hmk]
        simp [byteAt]
      rw [hcl]
      by_cases h0 : b0 &&& 0x7F#8 = 0#8
      · have h0' := ht.2 h0
        have hns : Buffer.isSync (b0 :: b1 :: rest) = false := by
          rw [Bool.eq_false_iff]; intro h
          obtain ⟨rfl, _⟩ := hsy.1 h
          simp at h0
        cases c <;> simp [h0, h0', hns, classRow, Instr.wellFormed, hnm]
      · have h0' : Buffer.isTypeZero (b0 :: b1 :: rest) = false := by
          rw [Bool.eq_false_iff]; exact fun h => h0 (ht.1 h)
        by_cases hF : b0 = 0xFF#8 ∧ b1 &&& 0xFC#8 = 0xF8#8
        · have hs' := hsy.2 hF
          rw [if_neg h0, if_pos hF.1, if_pos hF.2]
          cases c <;> simp [h0', hs', classRow, Instr.wellFormed, hnm]
        · have hs' : Buffer.isSync (b0 :: b1 :: rest) = false := by
            rw [Bool.eq_false_iff]; exact fun h => hF (hsy.1 h)
          have hother : (if b0 = 0xFF#8 then
              (if b1 &&& 0xFC#8 = 0xF8#8 then (Except.ok .audioFrame : Except AbortReason BufClass)
                else .ok .otherMetadataHeader)
              else .ok .otherMetadataHeader) = .ok .otherMetadataHeader := by
            by_cases h : b0 = 0xFF#8
            · rw [if_pos h, if_neg (fun h1 => hF ⟨h, h1⟩)]
            · rw [if_neg h]
          rw [if_neg h0, hother]
          cases c <;> simp [h0', hs', hts, classRow, Instr.wellFormed, hnm]

end Sys2Proof.Machine
end

