-- ==== Sys2Proof/Laws/Decode.lean ====
section
/-! SUPPORT. The operand layouts of Decode.lean and their inverses. -/

namespace Sys2Proof

/-- The bits of four bytes side by side. -/
theorem getLsbD_join (b0 b1 b2 b3 : Byte) (i : Nat) :
    (b0 ++ b1 ++ b2 ++ b3 : BitVec 32).getLsbD i =
      if i < 8 then b3.getLsbD i else if i < 16 then b2.getLsbD (i - 8)
      else if i < 24 then b1.getLsbD (i - 16) else b0.getLsbD (i - 24) := by
  have h3 : (b0 ++ b1 ++ b2 ++ b3 : BitVec 32).getLsbD i = _ :=
    BitVec.getLsbD_append (x := (b0 ++ b1 ++ b2)) (y := b3) (i := i)
  rw [h3, BitVec.getLsbD_append, BitVec.getLsbD_append]
  have e1 : i - 8 - 8 = i - 16 := by omega
  have e2 : i - 16 - 8 = i - 24 := by omega
  rw [e1, e2]
  split_ifs <;> first | rfl | omega

theorem sampleBytes_join (v : Sample) :
    (v.extractLsb' 24 8 ++ v.extractLsb' 16 8 ++ v.extractLsb' 8 8 ++ v.extractLsb' 0 8 : BitVec 32)
      = v := by
  apply BitVec.eq_of_getLsbD_eq
  intro i hi
  rw [getLsbD_join]
  simp only [BitVec.getLsbD_extractLsb']
  split_ifs with h1 h2 h3
  · simp [h1]
  · have : i - 8 < 8 := by omega
    simp only [this, decide_true, Bool.true_and]; congr 1; omega
  · have : i - 16 < 8 := by omega
    simp only [this, decide_true, Bool.true_and]; congr 1; omega
  · have : i - 24 < 8 := by omega
    simp only [this, decide_true, Bool.true_and]; congr 1; omega

theorem join_sampleBytes (b0 b1 b2 b3 : Byte) :
    sampleBytes (b0 ++ b1 ++ b2 ++ b3 : BitVec 32) = [b0, b1, b2, b3] := by
  have h : ∀ (k : Nat) (x : Byte), (∀ i, i < 8 →
      (b0 ++ b1 ++ b2 ++ b3 : BitVec 32).getLsbD (k + i) = x.getLsbD i) →
      (b0 ++ b1 ++ b2 ++ b3 : BitVec 32).extractLsb' k 8 = x := by
    intro k x hx
    apply BitVec.eq_of_getLsbD_eq
    intro i hi
    rw [BitVec.getLsbD_extractLsb', hx i hi]; simp [hi]
  rw [sampleBytes, h 24 b0, h 16 b1, h 8 b2, h 0 b3] <;>
    (intro i hi; rw [getLsbD_join]; interval_cases i <;> rfl)

/-- Samples survive their bytes. -/
theorem decodeSamples_encodeSamples (v : List Sample) :
    decodeSamples (encodeSamples v) = some v := by
  induction v with
  | nil => rfl
  | cons x t ih =>
    simp only [encodeSamples, sampleBytes, List.cons_append, List.nil_append, decodeSamples, ih,
      Option.map_some, sampleBytes_join]

/-- Bytes that are samples are those samples' bytes. -/
theorem encodeSamples_of_decodeSamples (b : Buffer) (v : List Sample)
    (h : decodeSamples b = some v) : encodeSamples v = b := by
  induction v generalizing b with
  | nil =>
    match b with
    | [] => rfl
    | b0 :: b1 :: b2 :: b3 :: rest =>
      simp only [decodeSamples, Option.map_eq_some_iff] at h
      obtain ⟨t, _, ht⟩ := h; cases ht
    | [_] | [_, _] | [_, _, _] => simp [decodeSamples] at h
  | cons x t ih =>
    match b with
    | [] => simp [decodeSamples] at h
    | b0 :: b1 :: b2 :: b3 :: rest =>
      simp only [decodeSamples, Option.map_eq_some_iff] at h
      obtain ⟨t', ht', hx⟩ := h
      injection hx with hx1 hx2
      subst hx1; subst hx2
      rw [encodeSamples, ih rest ht']
      exact congrArg (· ++ rest) (join_sampleBytes b0 b1 b2 b3)
    | [_] | [_, _] | [_, _, _] => simp [decodeSamples] at h

/-- Frames survive their bytes. -/
theorem decodeFrameOperand_encodeFrame (f : Frame) :
    decodeFrameOperand (encodeFrame f) = some f := by
  induction f with
  | nil => rfl
  | cons a t ih =>
    rw [encodeFrame, List.map_cons, decodeFrameOperand, decodeSamples_encodeSamples]
    rw [encodeFrame] at ih; rw [ih]

theorem encodeFrame_of_decode (bs : List Buffer) (f : Frame)
    (h : decodeFrameOperand bs = some f) : encodeFrame f = bs := by
  induction bs generalizing f with
  | nil => simp only [decodeFrameOperand, Option.some.injEq] at h; subst h; rfl
  | cons b rest ih =>
    rw [decodeFrameOperand] at h
    split at h
    · rename_i a t ha ht
      injection h with h; subst h
      rw [encodeFrame, List.map_cons, encodeSamples_of_decodeSamples b a ha]
      exact congrArg (b :: ·) (ih t ht)
    · cases h

/-- The bits of DESC. -/
theorem bits_getLsbD (d : StreamDescriptor) (i : Nat) : d.bits.getLsbD i =
    if i < 20 then d.sampleRate.getLsbD i else if i < 24 then d.channelCount.getLsbD (i - 20)
    else d.bitsPerSample.getLsbD (i - 24) := by
  have h : d.bits.getLsbD i = _ :=
    BitVec.getLsbD_append (x := (d.bitsPerSample ++ d.channelCount)) (y := d.sampleRate) (i := i)
  rw [h, BitVec.getLsbD_append]
  have e : i - 20 - 4 = i - 24 := by omega
  rw [e]
  split_ifs <;> first | rfl | omega

theorem bits_sampleRate (d : StreamDescriptor) : d.bits.extractLsb' 0 20 = d.sampleRate := by
  apply BitVec.eq_of_getLsbD_eq
  intro i hi
  rw [BitVec.getLsbD_extractLsb', bits_getLsbD]; simp [hi]

theorem bits_channelCount (d : StreamDescriptor) : d.bits.extractLsb' 20 4 = d.channelCount := by
  apply BitVec.eq_of_getLsbD_eq
  intro i hi
  rw [BitVec.getLsbD_extractLsb', bits_getLsbD]
  have h1 : ¬ 20 + i < 20 := by omega
  have h2 : 20 + i < 24 := by omega
  simp [hi, h2]

theorem bits_bitsPerSample (d : StreamDescriptor) : d.bits.extractLsb' 24 6 = d.bitsPerSample := by
  apply BitVec.eq_of_getLsbD_eq
  intro i hi
  rw [BitVec.getLsbD_extractLsb', bits_getLsbD]
  have h1 : ¬ 24 + i < 20 := by omega
  simp [hi, h1]

/-- A descriptor survives DESC's bits. -/
theorem ofBits_bits (d : StreamDescriptor) : StreamDescriptor.ofBits d.bits = d := by
  rw [StreamDescriptor.ofBits, bits_sampleRate, bits_channelCount, bits_bitsPerSample]

theorem bits_ofBits (w : BitVec 30) : (StreamDescriptor.ofBits w).bits = w := by
  apply BitVec.eq_of_getLsbD_eq
  intro i hi
  rw [bits_getLsbD]
  simp only [StreamDescriptor.ofBits, BitVec.getLsbD_extractLsb']
  split_ifs with h1 h2
  · simp [h1]
  · have : i - 20 < 4 := by omega
    simp only [this, decide_true, Bool.true_and]; congr 1; omega
  · have : i - 24 < 6 := by omega
    simp only [this, decide_true, Bool.true_and]; congr 1; omega

theorem ofCode_code (fmt : SampleFormat) : SampleFormat.ofCode (0#6 ++ fmt.code) = some fmt := by
  cases fmt <;> decide

theorem code_of_ofCode (c : Byte) (fmt : SampleFormat) (h : SampleFormat.ofCode c = some fmt) :
    0#6 ++ fmt.code = c := by
  revert c; cases fmt <;> decide

/-- The halves of LAYOUT_LOOKUP's operand byte. -/
theorem lookup_byte (n : BitVec 4) :
    (0#4 ++ n : BitVec 8).extractLsb' 4 4 = 0#4 ∧ (0#4 ++ n : BitVec 8).extractLsb' 0 4 = n := by
  revert n; decide

theorem byte_of_lookup (x : Byte) (h : x.extractLsb' 4 4 = 0#4) :
    (0#4 ++ x.extractLsb' 0 4 : BitVec 8) = x := by
  revert x; decide

/-- The bits of a DESC operand. -/
theorem word_getLsbD (w : BitVec 30) (i : Nat) :
    (0#2 ++ w : BitVec 32).getLsbD i = if i < 30 then w.getLsbD i else false := by
  have h : (0#2 ++ w : BitVec 32).getLsbD i = _ :=
    BitVec.getLsbD_append (x := 0#2) (y := w) (i := i)
  rw [h]; simp

theorem resolve_word (w : BitVec 30) :
    (0#2 ++ w : BitVec 32).extractLsb' 30 2 = 0#2 ∧ (0#2 ++ w : BitVec 32).extractLsb' 0 30 = w := by
  constructor <;> apply BitVec.eq_of_getLsbD_eq <;> intro i hi <;>
    rw [BitVec.getLsbD_extractLsb', word_getLsbD] <;> simp [hi]

theorem word_of_resolve (w : BitVec 32) (h : w.extractLsb' 30 2 = 0#2) :
    (0#2 ++ w.extractLsb' 0 30 : BitVec 32) = w := by
  apply BitVec.eq_of_getLsbD_eq
  intro i hi
  rw [word_getLsbD, BitVec.getLsbD_extractLsb']
  split_ifs with h1
  · simp [h1]
  · have h2 := congrArg (fun v => v.getLsbD (i - 30)) h
    simp only [BitVec.getLsbD_extractLsb', BitVec.getLsbD_zero] at h2
    have e : 30 + (i - 30) = i := by omega
    have e2 : i - 30 < 2 := by omega
    rw [e] at h2
    simpa [e2] using h2.symm

end Sys2Proof
end

