-- ==== Sys2Proof/Laws/Resolver.lean ====
section
/-! SUPPORT. What LAYOUT_LOOKUP, RESOLVE_FORMAT and HEADERS can answer, once. -/

namespace Sys2Proof.Machine

/-- The tag of a width is the tag whose bits it is (R112). -/
theorem widthFormat_some_iff (w : BitVec 6) (fmt : SampleFormat) :
    widthFormat w = some fmt ↔ w.toNat = formatBits fmt := by
  revert w; cases fmt <;> decide

theorem widthFormat_none_iff (w : BitVec 6) :
    widthFormat w = none ↔ ∀ fmt, w.toNat ≠ formatBits fmt := by
  constructor
  · intro h fmt hf
    rw [(widthFormat_some_iff w fmt).2 hf] at h; cases h
  · intro h
    cases hw : widthFormat w with
    | none => rfl
    | some fmt => exact absurd ((widthFormat_some_iff w fmt).1 hw) (h fmt)

theorem inRange_iff (d : StreamDescriptor) : DescriptorInRange d ↔
    (1 ≤ d.channelCount.toNat ∧ d.channelCount.toNat ≤ 8) ∧
      ∃ fmt, d.bitsPerSample.toNat = formatBits fmt := by
  constructor
  · rintro ⟨h, h8 | h8 | h8 | h8⟩
    exacts [⟨h, .s8, h8⟩, ⟨h, .s16, h8⟩, ⟨h, .s24in32, h8⟩, ⟨h, .s32, h8⟩]
  · rintro ⟨h, fmt, hf⟩
    cases fmt <;> simp only [formatBits] at hf <;> exact ⟨h, by omega⟩

/-- LAYOUT_LOOKUP inside its domain (R100). -/
theorem layoutLookup_of_range (t : LayoutTable) (n : Nat) (h : 1 ≤ n ∧ n ≤ 8) :
    layoutLookup t n = some (layoutEntries t n) := by
  have hlt : n - 1 < 8 := by omega
  rw [layoutLookup, if_pos h, Vector.getElem?_eq_getElem hlt, layoutEntries]
  simp [hlt]

/-- LAYOUT_LOOKUP outside its domain. -/
theorem layoutLookup_none (t : LayoutTable) (n : Nat) (h : ¬ (1 ≤ n ∧ n ≤ 8)) :
    layoutLookup t n = none := by rw [layoutLookup, if_neg h]

theorem layoutEntries_eq (t : LayoutTable) (r : Fin 8) (n : Nat) (h : r.val + 1 = n) :
    layoutEntries t n = (t[r]).toList.take n := by
  subst h
  simp [layoutEntries]

/-- RESOLVE_FORMAT on a supported width (R113, R114). -/
theorem resolveFormat_of_width (t : LayoutTable) (d : StreamDescriptor) (fmt : SampleFormat)
    (h : d.bitsPerSample.toNat = formatBits fmt) :
    resolveFormat t d =
      if 1 ≤ d.channelCount.toNat ∧ d.channelCount.toNat ≤ 8 then
        .ok (assembledFormat t d fmt)
      else .error .unsupportedChannelCount := by
  rw [resolveFormat, (widthFormat_some_iff _ _).2 h]
  by_cases hc : 1 ≤ d.channelCount.toNat ∧ d.channelCount.toNat ≤ 8
  · simp only [layoutLookup_of_range t _ hc, if_pos hc]
    rfl
  · simp only [layoutLookup_none t _ hc, if_neg hc]

/-- RESOLVE_FORMAT on any other width (R112). -/
theorem resolveFormat_of_no_width (t : LayoutTable) (d : StreamDescriptor)
    (h : ∀ fmt, d.bitsPerSample.toNat ≠ formatBits fmt) :
    resolveFormat t d = .error .unsupportedSampleWidth := by
  rw [resolveFormat, (widthFormat_none_iff _).2 h]

/-- RESOLVE_FORMAT succeeds exactly on its domain (R116), with the assembled format. -/
theorem resolveFormat_ok_iff (t : LayoutTable) (d : StreamDescriptor) (f : OutputFormat) :
    resolveFormat t d = .ok f ↔
      (1 ≤ d.channelCount.toNat ∧ d.channelCount.toNat ≤ 8) ∧
        ∃ fmt, d.bitsPerSample.toNat = formatBits fmt ∧ f = assembledFormat t d fmt := by
  by_cases h : ∃ fmt, d.bitsPerSample.toNat = formatBits fmt
  · obtain ⟨fmt, hf⟩ := h
    rw [resolveFormat_of_width t d fmt hf]
    constructor
    · intro hr
      split at hr <;> rename_i hc
      · injection hr with hr; exact ⟨hc, fmt, hf, hr.symm⟩
      · cases hr
    · rintro ⟨hc, fmt', hf', rfl⟩
      have hs := (widthFormat_some_iff _ _).2 hf
      rw [(widthFormat_some_iff _ _).2 hf'] at hs
      injection hs with hs; subst hs
      rw [if_pos hc]
  · rw [resolveFormat_of_no_width t d (fun fmt hf => h ⟨fmt, hf⟩)]
    constructor
    · intro hr; cases hr
    · rintro ⟨_, fmt, hf, _⟩; exact absurd ⟨fmt, hf⟩ h

/-- What a stored descriptor and format satisfy (R13 items 3 and 4). -/
theorem inRange_of_resolved {t : LayoutTable} {d : StreamDescriptor} {f : OutputFormat}
    (h : resolveFormat t d = .ok f) : DescriptorInRange d := by
  obtain ⟨hc, fmt, hf, _⟩ := (resolveFormat_ok_iff t d f).1 h
  exact (inRange_iff d).2 ⟨hc, fmt, hf⟩

/-- A format HEADERS proposes has been resolved (R198). -/
theorem headersFormat_resolved {ps : Params} {hdrs : List Buffer} {d : StreamDescriptor}
    {f : OutputFormat} (h : headersFormat ps hdrs = some (d, f)) :
    resolveFormat ps.layout d = .ok f := by
  unfold headersFormat at h
  split at h
  · split at h
    · split at h
      · cases h
      · split at h
        · cases h
        · rename_i hf
          injection h with h; injection h with h1 h2
          subst h1; subst h2; exact hf
    · cases h
  · cases h

end Sys2Proof.Machine
end

