-- ==== Sys2Proof/Laws/Exec.lean ====
section
/-! SUPPORT. Everything an operation can do when it answers a next state: one inversion lemma per
route, and one for exec. Later proofs cite these and unfold no meaning. -/

namespace Sys2Proof.Machine

open Sys2Proof

/-- The endings of a PUSH's route: no output, an error, an abort, an output, a stored format. -/
inductive PushEffect (s t : State) : Prop
  | quiet (c : BufClass) (h : t = s.respond (.quietOk (some c) 1 []))
  | error (c : BufClass) (e : ErrorName) (i : Option Detail) (h : t = s.takeError c e i)
  | abort (a : AbortReason) (h : t = s.takeAbort a)
  | output (out : Buffer) (h : t = s.respond (.output out))
  | header (d : StreamDescriptor) (f : OutputFormat) (hr : resolveFormat s.params.layout d = .ok f)
      (h : t = (s.storeFormat d f).respond (.quietOk (some .metadataHeader) 1 [.negotiate f]))

/-- The MetadataHeader route stores a resolved format or raises. -/
theorem pushHeader_cases {b : Buffer} {s t : State} (h : pushHeader b s = .next t) :
    (∃ e, t = s.takeError .metadataHeader e none) ∨
      ∃ d f, resolveFormat s.params.layout d = .ok f ∧
        t = (s.storeFormat d f).respond (.quietOk (some .metadataHeader) 1 [.negotiate f]) := by
  unfold pushHeader at h
  split at h
  · injection h with h; exact .inl ⟨_, h.symm⟩
  · rename_i d _
    split at h
    · injection h with h; exact .inl ⟨_, h.symm⟩
    · rename_i f hf
      injection h with h; exact .inr ⟨d, f, hf, h.symm⟩

/-- How DECODE_FRAME ends: always without a fault once the two stream fields agree. -/
theorem decodeFrame_total {s : State} (h : s.desc = none ↔ s.fmt = none) (b : Buffer) :
    ∃ r, decodeFrame s b = .ok r := by
  unfold decodeFrame
  split
  · exact ⟨_, rfl⟩
  · rename_i f hf hd
    rw [h.1 hd] at hf; cases hf
  · exact ⟨_, rfl⟩

/-- The range aborts need a descriptor out of range (R144). -/
theorem decodeFrame_abort {s : State} {b : Buffer} {a : AbortReason}
    (h : decodeFrame s b = .ok (.abort a)) :
    (a = .lengthMismatch ∨ a = .frameShape) ∨
      ∃ d, s.desc = some d ∧ ¬ DescriptorInRange d ∧ (a = .channelRange ∨ a = .widthRange) := by
  unfold decodeFrame at h
  split at h
  · cases h
  · cases h
  · rename_i d hf hd
    injection h with h
    unfold decodeUnder at h
    split at h <;> rename_i hc
    · injection h with h
      refine .inr ⟨d, hd, ?_, .inl h.symm⟩
      rintro ⟨h1, _⟩; omega
    · split at h <;> rename_i hw
      · injection h with h
        refine .inr ⟨d, hd, ?_, .inr h.symm⟩
        intro hr
        obtain ⟨_, fmt, hf⟩ := (inRange_iff d).1 hr
        exact (widthFormat_none_iff _).1 hw fmt hf
      · unfold callPrimitive at h
        split at h
        · cases h
        · cases h
        · split_ifs at h
          · injection h with h; exact .inl (.inl h.symm)
          · injection h with h; exact .inl (.inr h.symm)

/-- The AudioFrame route answers, and may latch what DECODE_FRAME aborts with. -/
theorem pushFrame_cases {b : Buffer} {s t : State} (h : pushFrame b s = .next t) :
    t = s.respond (.quietOk (some .audioFrame) 1 []) ∨
      (∃ e i, t = s.takeError .audioFrame e i) ∨
      (∃ a, decodeFrame s b = .ok (.abort a) ∧ t = s.takeAbort a) ∨
      ∃ out, t = s.respond (.output out) := by
  unfold pushFrame at h
  split at h
  · cases h
  · injection h with h; exact .inr (.inl ⟨_, _, h.symm⟩)
  · rename_i a ha
    injection h with h; exact .inr (.inr (.inl ⟨a, ha, h.symm⟩))
  · injection h with h; exact .inl h.symm
  · unfold pushOutput at h
    split at h
    · injection h with h; exact .inr (.inr (.inr ⟨_, h.symm⟩))
    · injection h with h; exact .inr (.inl ⟨_, _, h.symm⟩)

theorem pushFrame_effect {b : Buffer} {s t : State} (h : pushFrame b s = .next t) :
    PushEffect s t := by
  rcases pushFrame_cases h with h | ⟨e, i, h⟩ | ⟨a, _, h⟩ | ⟨out, h⟩
  · exact .quiet _ h
  · exact .error _ e i h
  · exact .abort a h
  · exact .output out h

theorem pushHeader_effect {b : Buffer} {s t : State} (h : pushHeader b s = .next t) :
    PushEffect s t := by
  rcases pushHeader_cases h with ⟨e, h⟩ | ⟨d, f, hr, h⟩
  · exact .error _ e none h
  · exact .header d f hr h

theorem pushIgnored_effect {c : BufClass} {s t : State} (h : pushIgnored c s = .next t) :
    PushEffect s t := by
  injection h with h; exact .quiet c h.symm

/-- A PUSH past its guards. -/
theorem pushBody_effect {b : Buffer} {s t : State} (h : pushBody b s = .next t) :
    PushEffect s t := by
  unfold pushBody at h
  split at h
  · injection h with h; exact .abort _ h.symm
  · rename_i c _
    cases c
    · exact pushIgnored_effect h
    · exact pushHeader_effect h
    · exact pushFrame_effect h
    · exact pushIgnored_effect h

/-- HEADERS past its guards: silent, or a stored format. -/
theorem headersBody_cases {hdrs : List Buffer} {s t : State} (h : headersBody hdrs s = .next t) :
    t = s.respond (.quietOk none 0 []) ∨
      ∃ d f, resolveFormat s.params.layout d = .ok f ∧
        t = (s.storeFormat d f).respond (.quietOk none 0 [.negotiate f]) := by
  unfold headersBody at h
  split at h
  · injection h with h; exact .inl h.symm
  · rename_i d f hf
    injection h with h; exact .inr ⟨d, f, headersFormat_resolved hf, h.symm⟩

/-- What a guarded operation can do: the two guards' answers, or its body in an Active state. -/
inductive GuardedEffect (i : Instr) (s t : State) : Prop
  | noSession (h0 : s.session = false) (h : t = s.respond .noSession)
  | latched (a : AbortReason) (h0 : s.session = true) (ha : s.aborted = some a)
      (h : t = s.respond (.aborting a))
  | push (h0 : Active s) (hi : ∀ hs, i ≠ .headers hs) (h : PushEffect s t)
  | headers (h0 : Active s) (hs : List Buffer) (hi : i = .headers hs)
      (h : headersBody hs s = .next t)

theorem guarded_effect {i : Instr} {s t : State} {body : State → Result}
    (hi : ∀ hs, i ≠ .headers hs) (hb : ∀ t, body s = .next t → PushEffect s t)
    (h : guarded s body = .next t) : GuardedEffect i s t := by
  rcases guarded_cases (s := s) body with ⟨h0, hg⟩ | ⟨a, h0, ha, hg⟩ | ⟨h0, ha, hg⟩
  · rw [hg] at h; injection h with h; exact .noSession h0 h.symm
  · rw [hg] at h; injection h with h; exact .latched a h0 ha h.symm
  · rw [hg] at h; exact .push ⟨h0, ha⟩ hi (hb t h)

/-- Everything the operations a PUSH or a HEADERS runs can do. -/
theorem exec_guarded {i : Instr} {s t : State} (hi : i.isGuarded = true)
    (h : exec i s = .next t) : GuardedEffect i s t := by
  cases i with
  | push b => exact guarded_effect (by simp) (fun _ h => pushBody_effect h) h
  | classStreamMarker b => exact guarded_effect (by simp) (fun _ h => pushIgnored_effect h) h
  | classMetadataHeader b => exact guarded_effect (by simp) (fun _ h => pushHeader_effect h) h
  | classAudioFrame b => exact guarded_effect (by simp) (fun _ h => pushFrame_effect h) h
  | classOtherMetadataHeader b => exact guarded_effect (by simp) (fun _ h => pushIgnored_effect h) h
  | headers hs =>
    change guarded s (headersBody hs) = .next t at h
    rcases guarded_cases (s := s) (headersBody hs) with ⟨h0, hg⟩ | ⟨a, h0, ha, hg⟩ | ⟨h0, ha, hg⟩
    · rw [hg] at h; injection h with h; exact .noSession h0 h.symm
    · rw [hg] at h; injection h with h; exact .latched a h0 ha h.symm
    · rw [hg] at h; exact .headers ⟨h0, ha⟩ hs rfl h
  | _ => simp [Instr.isGuarded] at hi

/-- Everything an internal operation invoked on its own can do: a result, or a latched abort by
CLASSIFY or DECODE_FRAME. -/
theorem exec_internal {i : Instr} {s t : State} (hi : i.isInternal = true)
    (h : exec i s = .next t) :
    (∃ r, t = s.report r) ∨
      ∃ a, t = (s.latch a).report (.abort a) ∧
        ((∃ b, i = .classify b ∧ classify s.params.marker b = .error a) ∨
          ∃ b, i = .decodeFrame b ∧ decodeFrame s b = .ok (.abort a)) := by
  cases i with
  | classify b =>
    change execClassify b s = .next t at h
    unfold execClassify at h
    split at h
    · injection h with h; exact .inl ⟨_, h.symm⟩
    · rename_i a ha
      injection h with h; exact .inr ⟨a, h.symm, .inl ⟨b, rfl, ha⟩⟩
  | parseStreamInfo b =>
    change execParseStreamInfo b s = .next t at h
    unfold execParseStreamInfo at h
    split at h <;> (injection h with h; exact .inl ⟨_, h.symm⟩)
  | layoutLookup n =>
    change execLayoutLookup n s = .next t at h
    unfold execLayoutLookup at h
    split at h
    · injection h with h; exact .inl ⟨_, h.symm⟩
    · cases h
  | resolveFormat d =>
    change execResolveFormat d s = .next t at h
    unfold execResolveFormat at h
    split at h <;> (injection h with h; exact .inl ⟨_, h.symm⟩)
  | decodeFrame b =>
    change execDecodeFrame b s = .next t at h
    unfold execDecodeFrame at h
    split at h
    · rename_i r hr
      injection h with h
      cases r with
      | done a => exact .inl ⟨_, h.symm⟩
      | raise e i => exact .inl ⟨_, h.symm⟩
      | abort a => exact .inr ⟨a, h.symm, .inr ⟨b, rfl, hr⟩⟩
    · cases h
  | narrow fmt v => injection h with h; exact .inl ⟨_, h.symm⟩
  | interleave f =>
    change onFrame f s _ = .next t at h
    unfold onFrame at h
    split_ifs at h; injection h with h; exact .inl ⟨_, h.symm⟩
  | repackS8 f =>
    change onFrame f s _ = .next t at h
    unfold onFrame at h
    split_ifs at h; injection h with h; exact .inl ⟨_, h.symm⟩
  | repackS16 f =>
    change onFrame f s _ = .next t at h
    unfold onFrame at h
    split_ifs at h; injection h with h; exact .inl ⟨_, h.symm⟩
  | repackS24in32 f =>
    change onFrame f s _ = .next t at h
    unfold onFrame at h
    split_ifs at h; injection h with h; exact .inl ⟨_, h.symm⟩
  | repackS32 f =>
    change onFrame f s _ = .next t at h
    unfold onFrame at h
    split_ifs at h; injection h with h; exact .inl ⟨_, h.symm⟩
  | _ => simp [Instr.isInternal] at hi

/-- Every operation is START, STOP, guarded or internal. -/
theorem kind_cases (i : Instr) :
    i = .start ∨ i = .stop ∨ i.isGuarded = true ∨ i.isInternal = true := by
  cases i <;> simp [Instr.isGuarded, Instr.isInternal]

/-- A step is the identity, an operation's exec, or a short bare buffer's guarded abort. -/
theorem step_cases {s t : State} (h : step s = .next t) :
    (s.pending = [] ∧ t = s) ∨
      ∃ p rest, s.pending = p :: rest ∧
        ((∃ i, decode s.params.marker p = .ok i ∧ exec i (s.taken rest) = .next t) ∨
          (decode s.params.marker p = .error .shortBuffer ∧
            guarded (s.taken rest) (fun s => .next (s.takeAbort .shortBuffer)) = .next t)) := by
  unfold step at h
  split at h
  · rename_i hp
    injection h with h; exact .inl ⟨hp, h.symm⟩
  · rename_i p rest hp
    refine .inr ⟨p, rest, hp, ?_⟩
    split at h
    · rename_i i hi
      exact .inl ⟨i, hi, h⟩
    · rename_i why hw
      cases why <;> simp only [rejected, reduceCtorEq] at h
      exact .inr ⟨hw, h⟩

end Sys2Proof.Machine
end

