-- ==== Sys2Proof/Laws/PerInstr.lean ====
section
/-! SUPPORT. The family Canonical: an operation has one packet. Whatever packet the decoder reads an
operation from, under whatever MARKER, is the packet the encoder gives it: no bit of a packet is
dropped. -/

namespace Sys2Proof

theorem encode_of_decodeCommand (code : BitVec 2) (bufs : List Buffer) (i : Instr)
    (h : decodeCommand code bufs = .ok i) : encode i = .command code bufs := by
  unfold decodeCommand at h
  split_ifs at h with h0 h0' h1 h1' h2
  · injection h with h; subst h; subst h0'; subst h0; rfl
  · injection h with h; subst h; subst h1'; subst h1; rfl
  · split at h
    · injection h with h; subst h; subst h2; rfl
    · cases h
  · injection h with h; subst h
    have : code = 3#2 := by revert h0 h1 h2; revert code; decide
    subst this; rfl

theorem encode_of_decodeBuffer (m : Vector Byte 4) (b : Buffer) (i : Instr)
    (h : decodeBuffer m b = .ok i) : encode i = .buffer b := by
  rw [Machine.decodeBuffer_eq] at h
  split at h
  · rename_i c _
    injection h with h; subst h; cases c <;> rfl
  · cases h

theorem decodeOneBuffer_ok {g : Buffer → Instr} {bufs : List Buffer} {i : Instr}
    (h : decodeOneBuffer g bufs = .ok i) : ∃ b, bufs = [b] ∧ i = g b := by
  unfold decodeOneBuffer at h
  split at h
  · injection h with h; exact ⟨_, rfl, h.symm⟩
  · cases h

theorem decodeOneFrame_ok {g : Frame → Instr} {bufs : List Buffer} {i : Instr}
    (h : decodeOneFrame g bufs = .ok i) : ∃ f, bufs = encodeFrame f ∧ i = g f := by
  unfold decodeOneFrame at h
  split at h
  · rename_i f hf
    injection h with h; exact ⟨f, (encodeFrame_of_decode _ _ hf).symm, h.symm⟩
  · cases h

theorem encode_of_decodeLookup {bufs : List Buffer} {i : Instr} (h : decodeLookup bufs = .ok i) :
    encode i = .bench 10#8 bufs := by
  unfold decodeLookup at h
  split at h
  · rename_i n
    split_ifs at h with hn
    injection h with h; subst h
    rw [encode, byte_of_lookup n hn]
  · cases h

theorem encode_of_decodeResolve {bufs : List Buffer} {i : Instr} (h : decodeResolve bufs = .ok i) :
    encode i = .bench 11#8 bufs := by
  unfold decodeResolve at h
  split at h
  · rename_i b0 b1 b2 b3
    simp only at h
    split_ifs at h with hw
    injection h with h; subst h
    rw [encode, bits_ofBits, word_of_resolve _ hw]
    exact congrArg (fun x => Packet.bench 11#8 [x]) (join_sampleBytes b0 b1 b2 b3)
  · cases h

theorem encode_of_decodeNarrow {bufs : List Buffer} {i : Instr} (h : decodeNarrow bufs = .ok i) :
    encode i = .bench 14#8 bufs := by
  unfold decodeNarrow at h
  split at h
  · rename_i c v
    split at h
    · rename_i fmt vs hc hv
      injection h with h; subst h
      rw [encode, code_of_ofCode c fmt hc, encodeSamples_of_decodeSamples v vs hv]
    · cases h
  · cases h

theorem encode_of_decodeBench (code : Byte) (bufs : List Buffer) (i : Instr)
    (h : decodeBench code bufs = .ok i) : encode i = .bench code bufs := by
  unfold decodeBench at h
  by_cases h8 : code = 8#8
  · rw [if_pos h8] at h
    obtain ⟨b, rfl, rfl⟩ := decodeOneBuffer_ok h
    rw [h8, encode]
  rw [if_neg h8] at h
  by_cases h9 : code = 9#8
  · rw [if_pos h9] at h
    obtain ⟨b, rfl, rfl⟩ := decodeOneBuffer_ok h
    rw [h9, encode]
  rw [if_neg h9] at h
  by_cases h10 : code = 10#8
  · rw [if_pos h10] at h
    rw [h10]
    exact encode_of_decodeLookup h
  rw [if_neg h10] at h
  by_cases h11 : code = 11#8
  · rw [if_pos h11] at h
    rw [h11]
    exact encode_of_decodeResolve h
  rw [if_neg h11] at h
  by_cases h12 : code = 12#8
  · rw [if_pos h12] at h
    obtain ⟨b, rfl, rfl⟩ := decodeOneBuffer_ok h
    rw [h12, encode]
  rw [if_neg h12] at h
  by_cases h13 : code = 13#8
  · rw [if_pos h13] at h
    obtain ⟨f, rfl, rfl⟩ := decodeOneFrame_ok h
    rw [h13, encode]
  rw [if_neg h13] at h
  by_cases h14 : code = 14#8
  · rw [if_pos h14] at h
    rw [h14]
    exact encode_of_decodeNarrow h
  rw [if_neg h14] at h
  by_cases h15 : code = 15#8
  · rw [if_pos h15] at h
    obtain ⟨f, rfl, rfl⟩ := decodeOneFrame_ok h
    rw [h15, encode]
  rw [if_neg h15] at h
  by_cases h16 : code = 16#8
  · rw [if_pos h16] at h
    obtain ⟨f, rfl, rfl⟩ := decodeOneFrame_ok h
    rw [h16, encode]
  rw [if_neg h16] at h
  by_cases h17 : code = 17#8
  · rw [if_pos h17] at h
    obtain ⟨f, rfl, rfl⟩ := decodeOneFrame_ok h
    rw [h17, encode]
  rw [if_neg h17] at h
  by_cases h18 : code = 18#8
  · rw [if_pos h18] at h
    obtain ⟨f, rfl, rfl⟩ := decodeOneFrame_ok h
    rw [h18, encode]
  rw [if_neg h18] at h
  cases h

/-- The encoder undoes the decoder, port by port. -/
theorem encode_of_decode (m : Vector Byte 4) (p : Packet) (i : Instr) (h : decode m p = .ok i) :
    encode i = p := by
  cases p with
  | command code bufs => exact encode_of_decodeCommand code bufs i h
  | buffer b => exact encode_of_decodeBuffer m b i h
  | bench code bufs => exact encode_of_decodeBench code bufs i h

end Sys2Proof

namespace Sys2Proof.Laws.Canonical

open Sys2Proof

/-- An operation's one packet. -/
def Statement (i : Instr) : Prop := ∀ (m : Vector Byte 4) (p : Packet), decode m p = .ok i → encode i = p

theorem start : Statement .start := fun m p => encode_of_decode m p _
theorem stop : Statement .stop := fun m p => encode_of_decode m p _
theorem push (b : Buffer) : Statement (.push b) := fun m p => encode_of_decode m p _
theorem headers (hdrs : List Buffer) : Statement (.headers hdrs) := fun m p => encode_of_decode m p _
theorem classStreamMarker (b : Buffer) : Statement (.classStreamMarker b) := fun m p => encode_of_decode m p _
theorem classMetadataHeader (b : Buffer) : Statement (.classMetadataHeader b) := fun m p => encode_of_decode m p _
theorem classAudioFrame (b : Buffer) : Statement (.classAudioFrame b) := fun m p => encode_of_decode m p _
theorem classOtherMetadataHeader (b : Buffer) : Statement (.classOtherMetadataHeader b) := fun m p => encode_of_decode m p _
theorem classify (b : Buffer) : Statement (.classify b) := fun m p => encode_of_decode m p _
theorem parseStreamInfo (b : Buffer) : Statement (.parseStreamInfo b) := fun m p => encode_of_decode m p _
theorem layoutLookup (n : BitVec 4) : Statement (.layoutLookup n) := fun m p => encode_of_decode m p _
theorem resolveFormat (d : StreamDescriptor) : Statement (.resolveFormat d) := fun m p => encode_of_decode m p _
theorem decodeFrame (b : Buffer) : Statement (.decodeFrame b) := fun m p => encode_of_decode m p _
theorem interleave (f : Frame) : Statement (.interleave f) := fun m p => encode_of_decode m p _
theorem narrow (fmt : SampleFormat) (v : List Sample) : Statement (.narrow fmt v) := fun m p => encode_of_decode m p _
theorem repackS8 (f : Frame) : Statement (.repackS8 f) := fun m p => encode_of_decode m p _
theorem repackS16 (f : Frame) : Statement (.repackS16 f) := fun m p => encode_of_decode m p _
theorem repackS24in32 (f : Frame) : Statement (.repackS24in32 f) := fun m p => encode_of_decode m p _
theorem repackS32 (f : Frame) : Statement (.repackS32 f) := fun m p => encode_of_decode m p _

end Sys2Proof.Laws.Canonical
end

