-- ==== Sys2Proof/Laws/Repacker.lean ====
section
/-! SUPPORT. Blocks of constant length in a flatMap, and what interleaving and narrowing put where. -/

namespace Sys2Proof.Machine

/-- The length of blocks of one length. -/
theorem length_flatMap_const {α β : Type} (l : List α) (g : α → List β) (w : Nat)
    (h : ∀ a ∈ l, (g a).length = w) : (l.flatMap g).length = l.length * w := by
  induction l with
  | nil => simp
  | cons a t ih =>
    simp only [List.flatMap_cons, List.length_append, List.length_cons]
    rw [h a (by simp), ih (fun x hx => h x (by simp [hx]))]
    rw [Nat.succ_mul]; omega

/-- Element `j` of block `k`. -/
theorem getElem?_flatMap_const {α β : Type} (l : List α) (g : α → List β) (w : Nat)
    (h : ∀ a ∈ l, (g a).length = w) (k : Nat) (a : α) (hk : l[k]? = some a) (j : Nat) (hj : j < w) :
    (l.flatMap g)[k * w + j]? = (g a)[j]? := by
  induction l generalizing k with
  | nil => simp at hk
  | cons x t ih =>
    have hx : (g x).length = w := h x (by simp)
    cases k with
    | zero =>
      simp only [List.getElem?_cons_zero, Option.some.injEq] at hk
      subst hk
      rw [List.flatMap_cons, Nat.zero_mul, Nat.zero_add, List.getElem?_append_left (by omega)]
    | succ k =>
      rw [List.getElem?_cons_succ] at hk
      rw [List.flatMap_cons, List.getElem?_append_right (by rw [hx, Nat.succ_mul]; omega), hx]
      rw [show (k + 1) * w + j - w = k * w + j by rw [Nat.succ_mul]; omega]
      exact ih (fun y hy => h y (by simp [hy])) k hk

/-- Block `k` as a list. -/
theorem take_drop_flatMap_const {α β : Type} (l : List α) (g : α → List β) (w : Nat)
    (h : ∀ a ∈ l, (g a).length = w) (k : Nat) (a : α) (hk : l[k]? = some a) :
    ((l.flatMap g).drop (k * w)).take w = g a := by
  have ha : a ∈ l := List.mem_of_getElem? hk
  have hlen := length_flatMap_const l g w h
  have hkl : k < l.length := by
    by_contra hc
    rw [List.getElem?_eq_none (by omega)] at hk; cases hk
  have hle : k * w + w ≤ l.length * w := by
    rw [← Nat.succ_mul]; exact Nat.mul_le_mul_right w hkl
  apply List.ext_getElem?
  intro j
  by_cases hj : j < w
  · rw [List.getElem?_take_of_lt hj, List.getElem?_drop, getElem?_flatMap_const l g w h k a hk j hj]
  · rw [List.getElem?_eq_none, List.getElem?_eq_none]
    · rw [h a ha]; omega
    · rw [List.length_take]; omega

/-- The shape check of the machine and the shape of the claims. -/
theorem isRectangular_iff (f : Frame) :
    Frame.isRectangular f = true ↔ 1 ≤ f.length ∧ ∃ n, HasShape f.length n f := by
  cases f with
  | nil => simp [Frame.isRectangular]
  | cons a t =>
    simp only [Frame.isRectangular, List.all_eq_true, beq_iff_eq]
    constructor
    · intro h
      refine ⟨by simp, a.length, rfl, ?_⟩
      intro x hx
      rcases List.mem_cons.1 hx with rfl | hx
      · rfl
      · exact h x hx
    · rintro ⟨_, n, _, h⟩ x hx
      rw [h x (by simp [hx]), h a (by simp)]

theorem frameShapeOk_iff (c : Nat) (f : Frame) :
    frameShapeOk c f = true ↔ ∃ n, HasShape c n f := by
  simp only [frameShapeOk, Bool.and_eq_true, beq_iff_eq, List.all_eq_true]
  constructor
  · rintro ⟨hl, h⟩; exact ⟨_, hl, h⟩
  · rintro ⟨n, hl, h⟩
    refine ⟨hl, fun a ha => ?_⟩
    cases f with
    | nil => simp at ha
    | cons x t => rw [h a ha, List.headD_cons, h x (by simp)]

/-- The number of samples per channel of a frame with at least one array. -/
theorem headD_length {c n : Nat} {f : Frame} (hc : 1 ≤ c) (h : HasShape c n f) :
    (f.headD []).length = n := by
  cases f with
  | nil => have := h.1; simp at this; omega
  | cons a t => exact h.2 a (by simp)

theorem interleave_length {c n : Nat} {f : Frame} (hc : 1 ≤ c) (h : HasShape c n f) :
    (interleave f).length = n * c := by
  rw [interleave, headD_length hc h,
    length_flatMap_const _ _ c (by intro a _; rw [List.length_map, h.1]), List.length_range]

theorem interleave_getElem? {c n : Nat} {f : Frame} (hc : 1 ≤ c) (h : HasShape c n f) (i k : Nat)
    (hi : i < n) (hk : k < c) :
    (interleave f)[i * c + k]? = some ((f.getD k []).getD i 0#32) := by
  rw [interleave, headD_length hc h, getElem?_flatMap_const _ _ c
    (by intro a _; rw [List.length_map, h.1]) i i (List.getElem?_range hi) k hk]
  have hkl : k < f.length := by rw [h.1]; exact hk
  simp [List.getElem?_map, List.getElem?_eq_getElem hkl]

theorem narrow_length (e : Endian) (fmt : SampleFormat) (v : List Sample) :
    (narrow e fmt v).length = v.length * containerWidth fmt :=
  length_flatMap_const _ _ _ (by simp)

theorem narrow_container (e : Endian) (fmt : SampleFormat) (v : List Sample) (k : Nat) (x : Sample)
    (hk : v[k]? = some x) :
    ((narrow e fmt v).drop (k * containerWidth fmt)).take (containerWidth fmt) =
      containerBytes e (narrowSample fmt x) :=
  take_drop_flatMap_const _ _ _ (by simp) k x hk

theorem narrow_getElem? (e : Endian) (fmt : SampleFormat) (v : List Sample) (k : Nat) (x : Sample)
    (hk : v[k]? = some x) (j : Nat) (hj : j < containerWidth fmt) :
    (narrow e fmt v)[k * containerWidth fmt + j]? =
      some (containerByte e (containerWidth fmt) x j) := by
  rw [narrow, getElem?_flatMap_const _ _ _ (by simp) k x hk j hj,
    container_narrow_getElem? e fmt x j hj]

end Sys2Proof.Machine
end

