-- ==== Sys2Proof/Tests/Slice0.lean ====
section
/-! SUPPORT. Tests and witnesses. The words are written out from the spec's encodings, the expected
results are those of spec/95_test_vectors.md (the vector is named in each docstring). LAYOUT here is the
candidate of spec/93_implementation_defined.md G4 and MARKER its G1: for the tests alone. -/

namespace Sys2Proof.Tests

open Sys2Proof.Machine

/-! ## Helpers -/

/-- The next state of a result. -/
def nextOf (r : Result) : Option State :=
  match r with
  | .next s => some s
  | .fault _ => none
  | .refused _ => none

/-- What a result's next state answers. -/
def answerOf (r : Result) : Option Answer := (nextOf r).bind (·.answer)

/-- S in a result's next state. -/
def stateOf (r : Result) :
    Option (Bool × Option AbortReason × Option StreamDescriptor × Option OutputFormat) :=
  (nextOf r).map fun s => (s.session, s.aborted, s.desc, s.fmt)

/-- The refusal of a result. -/
def refusalOf (r : Result) : Option Refusal :=
  match r with
  | .next _ => none
  | .fault _ => none
  | .refused why => some why

/-- Bytes. -/
def bs (l : List Nat) : Buffer := l.map (BitVec.ofNat 8)

/-- Samples. -/
def smp (l : List Int) : List Sample := l.map (BitVec.ofInt 32)

/-- G4's candidate table. -/
def layout : LayoutTable :=
  #v[#v[.mono, .invalid, .invalid, .invalid, .invalid, .invalid, .invalid, .invalid],
    #v[.frontLeft, .frontRight, .invalid, .invalid, .invalid, .invalid, .invalid, .invalid],
    #v[.frontLeft, .frontCenter, .frontRight, .invalid, .invalid, .invalid, .invalid, .invalid],
    #v[.frontLeft, .frontRight, .rearLeft, .rearRight, .invalid, .invalid, .invalid, .invalid],
    #v[.frontLeft, .frontCenter, .frontRight, .rearLeft, .rearRight, .invalid, .invalid, .invalid],
    #v[.frontLeft, .frontCenter, .frontRight, .rearLeft, .rearRight, .lowFrequencyEffects, .invalid,
      .invalid],
    #v[.frontLeft, .frontCenter, .frontRight, .sideLeft, .sideRight, .rearCenter,
      .lowFrequencyEffects, .invalid],
    #v[.frontLeft, .frontCenter, .frontRight, .sideLeft, .sideRight, .rearLeft, .rearRight,
      .lowFrequencyEffects]]

/-- The audio buffer of the vectors. -/
def audio : Buffer := bs [0xFF, 0xF8, 0xC9, 0x18, 0x00, 0xC2]

/-- A tag for IDENT_TAG, which the spec leaves open. -/
def tag : Buffer := bs [1, 2, 3, 4, 5, 6, 7, 8]

/-- The parameters of a test, with one answer of `P` for the audio buffer. -/
def params (e : Endian) (channels : Nat) (a : PrimAnswer) : Params :=
  { marker := tableMarker, identTag := #v[1, 2, 3, 4, 5, 6, 7, 8], layout := layout, outEndian := e,
    primTable := [{ buf := audio, channels := channels, answer := a }] }

/-- The slice `SI` of the vectors with bytes 14 to 17. -/
def si (r0 r1 r2 r3 : Nat) : Buffer :=
  bs ([0x00, 0x00, 0x00, 0x22, 0x10, 0x00, 0x10, 0x00, 0, 0, 0, 0, 0, 0, r0, r1, r2, r3] ++
    List.replicate 20 0)

/-- `SI(44100,2,16)`. -/
def si16 : Buffer := si 0x0A 0xC4 0x42 0xF0

/-- `SI(44100,2,12)`. -/
def si12 : Buffer := si 0x0A 0xC4 0x42 0xB0

/-- A descriptor. -/
def dsc (r c b : Nat) : StreamDescriptor :=
  { sampleRate := BitVec.ofNat 20 r, channelCount := BitVec.ofNat 4 c, bitsPerSample := BitVec.ofNat 6 b }

/-- `f16`. -/
def f16 : OutputFormat :=
  { sampleFormat := .s16, sampleRate := 44100, channelCount := 2, interleaved := .interleaved,
    channelLayout := [.frontLeft, .frontRight] }

/-- The one value DETAIL is known to have. -/
def detail : Detail := { code := 0, admitted := .inl rfl }

/-- A state with nothing outstanding. -/
def mk (session : Bool) (aborted : Option AbortReason) (desc : Option StreamDescriptor)
    (fmt : Option OutputFormat) (ps : Params) : State :=
  { session := session, aborted := aborted, desc := desc, fmt := fmt, params := ps, pending := [],
    answer := none }

/-- `{1, none, none, none}`. -/
def fresh : State := mk true none none none (params .little 2 .noFrame)

/-- `{1, none, some {44100,2,16}, some f16}` with an answer of `P` for two channels. -/
def ready (a : PrimAnswer) : State := mk true none (some (dsc 44100 2 16)) (some f16) (params .little 2 a)

/-- The frame of program P1. -/
def stereo : Frame := [smp [1, 2, 3], smp [-1, -2, -3]]

/-! ## Well-formedness: one ill-formed operation for each check, refused -/

/-- R54 row 1: length 4 and the marker's bytes. -/
theorem test_wf_marker :
    (Instr.classStreamMarker (bs [0x66, 0x4C, 0x61, 0x44])).wellFormed tableMarker = false := by decide

/-- R54 row 2: a byte 0 whose low 7 bits are not 0; and the marker when it is type 0. -/
theorem test_wf_metadata :
    (Instr.classMetadataHeader (bs [0x01])).wellFormed tableMarker = false ∧
      (Instr.classMetadataHeader []).wellFormed tableMarker = false ∧
      (Instr.classMetadataHeader (bs [0, 1, 2, 3])).wellFormed #v[0, 1, 2, 3] = false := by decide

/-- R54 row 3: a second byte outside F8 to FB, a missing second byte, the marker. -/
theorem test_wf_audio :
    (Instr.classAudioFrame (bs [0xFF, 0xFC])).wellFormed tableMarker = false ∧
      (Instr.classAudioFrame (bs [0xFF])).wellFormed tableMarker = false ∧
      (Instr.classAudioFrame (bs [0xFF, 0xF8, 0, 0])).wellFormed #v[0xFF, 0xF8, 0, 0] = false := by
  decide

/-- R54 row 4: a buffer of each of the rows above, and the two short ones. -/
theorem test_wf_other :
    (Instr.classOtherMetadataHeader (bs [0x66, 0x4C, 0x61, 0x43])).wellFormed tableMarker = false ∧
      (Instr.classOtherMetadataHeader (bs [0x80])).wellFormed tableMarker = false ∧
      (Instr.classOtherMetadataHeader (bs [0xFF, 0xFB])).wellFormed tableMarker = false ∧
      (Instr.classOtherMetadataHeader []).wellFormed tableMarker = false ∧
      (Instr.classOtherMetadataHeader (bs [0xFF])).wellFormed tableMarker = false := by decide

/-- R100: a count outside 1 to 8. -/
theorem test_wf_layout :
    (Instr.layoutLookup 0).wellFormed tableMarker = false ∧
      (Instr.layoutLookup 9).wellFormed tableMarker = false := by decide

/-- R142: a DECODE_FRAME's buffer begins with the sync pattern. -/
theorem test_wf_decode : (Instr.decodeFrame (bs [0xFF, 0xF0])).wellFormed tableMarker = false := by
  decide

/-- R161, R176: no array, arrays of unequal length, nine arrays. -/
theorem test_wf_frame :
    (Instr.interleave []).wellFormed tableMarker = false ∧
      (Instr.interleave [smp [1, 2], smp [3]]).wellFormed tableMarker = false ∧
      (Instr.interleave (List.replicate 9 [])).wellFormed tableMarker = false ∧
      (Instr.repackS8 [smp [1, 2], smp [3]]).wellFormed tableMarker = false ∧
      (Instr.repackS16 []).wellFormed tableMarker = false ∧
      (Instr.repackS24in32 (List.replicate 9 [])).wellFormed tableMarker = false ∧
      (Instr.repackS32 [[], smp [1]]).wellFormed tableMarker = false := by decide

/-! ## Decoding: words written out from the spec -/

/-- R62's four codes as table words. -/
theorem test_decode_commands :
    decodeTableWord 2 0b00 = some .start ∧ decodeTableWord 2 0b01 = some .stop ∧
      decodeTableWord 2 0b10 = some (.push []) ∧ decodeTableWord 2 0b11 = some (.headers []) := by decide

/-- R51 to R54 as table words: the marker, type 0 with the last-block flag, FF FB (don't-care bits set),
FF FC. -/
theorem test_decode_classes :
    decodeTableWord 32 0x664C6143 = some (.classStreamMarker (bs [0x66, 0x4C, 0x61, 0x43])) ∧
      decodeTableWord 8 0x80 = some (.classMetadataHeader (bs [0x80])) ∧
      decodeTableWord 16 0b1111111111111011 = some (.classAudioFrame (bs [0xFF, 0xFB])) ∧
      decodeTableWord 16 0xFFFC = some (.classOtherMetadataHeader (bs [0xFF, 0xFC])) := by decide

/-- V43.13 and V43.14 as buffers: longer than the marker, and its first three bytes. -/
theorem test_decode_marker_is_whole_buffer :
    decode tableMarker (.buffer (bs [0x66, 0x4C, 0x61, 0x43, 0x00])) =
        .ok (.classOtherMetadataHeader (bs [0x66, 0x4C, 0x61, 0x43, 0x00])) ∧
      decode tableMarker (.buffer (bs [0x66, 0x4C, 0x61])) =
        .ok (.classOtherMetadataHeader (bs [0x66, 0x4C, 0x61])) := by decide

/-- Every packet the decoder rejects is rejected by name. -/
theorem test_decode_rejects :
    decode tableMarker (.command 0 [[]]) = .error .commandOperands ∧
      decode tableMarker (.command 2 []) = .error .commandOperands ∧
      decode tableMarker (.buffer []) = .error .shortBuffer ∧
      decode tableMarker (.buffer (bs [0xFF])) = .error .shortBuffer ∧
      decode tableMarker (.bench 7 [[]]) = .error .benchCode ∧
      decode tableMarker (.bench 10 [bs [0x12]]) = .error .benchOperands ∧
      decode tableMarker (.bench 14 [bs [4], []]) = .error .benchOperands := by decide

/-- The model's packets of the internal operations (log 2): the descriptor {44100, 2, 16} has the bits
`010000 0010 00001010110001000100`, the 30-bit DESC of R22. -/
theorem test_decode_bench :
    decode tableMarker (.bench 10 [bs [0x08]]) = .ok (.layoutLookup 8) ∧
      decode tableMarker (.bench 11 [bs [0b00010000, 0b00100000, 0b10101100, 0b01000100]]) =
        .ok (.resolveFormat (dsc 44100 2 16)) ∧
      decode tableMarker (.bench 14 [bs [2], bs [0xFF, 0xFF, 0xFF, 0xFE]]) =
        .ok (.narrow .s24in32 (smp [-2])) ∧
      decode tableMarker (.bench 13 [bs [0, 0, 1, 0], bs [0, 0, 0, 2]]) =
        .ok (.interleave [smp [256], smp [2]]) ∧
      decode tableMarker (.bench 8 [[]]) = .ok (.classify []) ∧
      decode tableMarker (.bench 9 [[]]) = .ok (.parseStreamInfo []) ∧
      decode tableMarker (.bench 12 [audio]) = .ok (.decodeFrame audio) ∧
      decode tableMarker (.bench 15 [[]]) = .ok (.repackS8 [[]]) ∧
      decode tableMarker (.bench 16 [[]]) = .ok (.repackS16 [[]]) ∧
      decode tableMarker (.bench 17 [[]]) = .ok (.repackS24in32 [[]]) ∧
      decode tableMarker (.bench 18 [[]]) = .ok (.repackS32 [[]]) := by decide

/-- A table row's word is the next operation after reset, whatever the open parameters are. -/
theorem test_fetch_word_after_reset :
    State.reset.withFetchWord 16 0xFFF8 =
        { State.reset with
          pending := [.buffer [0xFF#8, 0xF8#8]]
          params := { Config.params with marker := tableMarker } } ∧
      stateOf (step (State.reset.withFetchWord 2 0)) = some (true, none, none, none) :=
  ⟨rfl, rfl⟩

/-! ## One step each -/

/-- V46.6. -/
theorem test_start :
    stateOf (exec .start (mk true (some .lengthMismatch) (some (dsc 44100 2 16)) (some f16)
      (params .little 2 .noFrame))) = some (true, none, none, none) := by decide

/-- V46.15. -/
theorem test_stop :
    stateOf (exec .stop (mk true (some .shortBuffer) none none (params .little 2 .noFrame))) =
      some (false, none, none, none) := by decide

/-- V46.9. -/
theorem test_push_header :
    stateOf (exec (.push si16) fresh) = some (true, none, some (dsc 44100 2 16), some f16) ∧
      answerOf (exec (.push si16) fresh) =
        some (okNoOutput (some .metadataHeader) 1 [.negotiate f16]) := by decide

/-- Program P1, step 5. -/
theorem test_push_frame :
    answerOf (exec (.push audio) (ready (.frame stereo 6))) =
      some (outputAnswer (bs [0x01, 0, 0xFF, 0xFF, 0x02, 0, 0xFE, 0xFF, 0x03, 0, 0xFD, 0xFF])) := by
  decide

/-- V46.21. -/
theorem test_headers :
    stateOf (exec (.headers [tag ++ bs [0, 1], si16, bs [4, 0, 0, 0]]) fresh) =
        some (true, none, some (dsc 44100 2 16), some f16) ∧
      answerOf (exec (.headers [tag ++ bs [0, 1], si16, bs [4, 0, 0, 0]]) fresh) =
        some (okNoOutput none 0 [.negotiate f16]) := by decide

/-- V46.20. -/
theorem test_headers_quiet :
    nextOf (exec (.headers [tag, si12]) fresh) =
      some { fresh with answer := some (okNoOutput none 0 []) } := by decide

/-- V46.7. -/
theorem test_class_marker :
    nextOf (exec (.classStreamMarker (bs [0x66, 0x4C, 0x61, 0x43])) fresh) =
      some { fresh with answer := some (okNoOutput (some .streamMarker) 1 []) } := by decide

/-- V46.11. -/
theorem test_class_metadata :
    nextOf (exec (.classMetadataHeader si12) (ready .noFrame)) =
      some { ready .noFrame with
        answer := some (errorAnswer .metadataHeader .unsupportedSampleWidth .sessionFatal none) } := by
  decide

/-- V44.5 and V44.6, in a PUSH: fewer and more bytes consumed. -/
theorem test_class_audio :
    stateOf (exec (.classAudioFrame audio) (ready (.frame [smp [1], smp [2]] 5))) =
        some (true, some .lengthMismatch, some (dsc 44100 2 16), some f16) ∧
      answerOf (exec (.classAudioFrame audio) (ready (.frame [smp [1], smp [2]] 7))) =
        some (abortAnswer .lengthMismatch) := by decide

/-- V46.8. -/
theorem test_class_other :
    nextOf (exec (.classOtherMetadataHeader (bs [0x04, 0, 0, 0x02, 0x41, 0x42])) fresh) =
      some { fresh with answer := some (okNoOutput (some .otherMetadataHeader) 1 []) } := by decide

/-- V43.16. -/
theorem test_classify :
    answerOf (exec (.classify (bs [0x00, 0x4C, 0x61, 0x43])) fresh) =
      some (.result (.cls .metadataHeader)) := by decide

/-- V40.14: every ignored bit set. -/
theorem test_parse :
    answerOf (exec (.parseStreamInfo (bs ([0x80, 0, 0, 0x22] ++ List.replicate 10 0xFF ++
        [0x0A, 0xC4, 0x42] ++ List.replicate 21 0xFF))) fresh) =
      some (.result (.descriptor (dsc 44100 2 16))) := by decide

/-- V40.15 and V40.9: the tag is tested before the surplus. -/
theorem test_parse_order :
    answerOf (exec (.parseStreamInfo (si16.set 3 0x23#8 ++ [0#8])) fresh) =
        some (.result (.error .malformedStreamInfo none)) ∧
      answerOf (exec (.parseStreamInfo (si16 ++ [0#8])) fresh) =
        some (.result (.error .trailingOrTruncatedData none)) := by decide

/-- V41.1. -/
theorem test_layout :
    answerOf (exec (.layoutLookup 2) fresh) = some (.result (.layout [.frontLeft, .frontRight])) := by
  decide

/-- V41.3. -/
theorem test_layout_domain :
    refusalOf (exec (.layoutLookup 9) fresh) = some .layoutOutsideDomain := by decide

/-- V42.3. -/
theorem test_resolve :
    answerOf (exec (.resolveFormat (dsc 96000 2 24)) fresh) =
      some (.result (.format
        { sampleFormat := .s24in32, sampleRate := 96000, channelCount := 2,
          interleaved := .interleaved, channelLayout := [.frontLeft, .frontRight] })) := by decide

/-- V42.9: the width is checked first. -/
theorem test_resolve_order :
    answerOf (exec (.resolveFormat (dsc 44100 9 12)) fresh) =
      some (.result (.error .unsupportedSampleWidth none)) := by decide

/-- V44.9: the consumption is checked before the shape. -/
theorem test_decode_frame :
    answerOf (exec (.decodeFrame audio) (ready (.frame [smp [1, 2], smp [3]] 5))) =
      some (.result (.abort .lengthMismatch)) := by decide

/-- V44.14: the channel count is checked before the width. -/
theorem test_decode_frame_range :
    answerOf (exec (.decodeFrame audio) (mk true none (some (dsc 44100 9 12)) (some f16)
      (params .little 9 .noFrame))) = some (.result (.abort .channelRange)) := by decide

/-- V45.11. -/
theorem test_interleave :
    answerOf (exec (.interleave [smp [1, 2], smp [3, 4], smp [5, 6]]) fresh) =
      some (.result (.samples (smp [1, 3, 5, 2, 4, 6]))) := by decide

/-- V45.18. -/
theorem test_interleave_ragged :
    refusalOf (exec (.interleave [smp [1, 2], smp [3]]) fresh) = some .frameNotRectangular := by decide

/-- V45.8. -/
theorem test_narrow :
    answerOf (exec (.narrow .s8 (smp [300, -300])) fresh) = some (.result (.bytes (bs [0x2C, 0xD4]))) := by
  decide

/-- V45.7, big. -/
theorem test_narrow_big :
    answerOf (exec (.narrow .s16 (smp [1, -2])) { fresh with params := params .big 2 .noFrame }) =
      some (.result (.bytes (bs [0x00, 0x01, 0xFF, 0xFE]))) := by decide

/-- V45.1. -/
theorem test_repack_s8 :
    answerOf (exec (.repackS8 [smp [127, -128, 128, 255, 256, -129, 0, -1]]) fresh) =
      some (.result (.bytes (bs [0x7F, 0x80, 0x80, 0xFF, 0x00, 0x7F, 0x00, 0xFF]))) := by decide

/-- V45.5. -/
theorem test_repack_s16 :
    answerOf (exec (.repackS16 [smp [32768, 65536, -32769, -65536, 70000]]) fresh) =
      some (.result (.bytes (bs [0x00, 0x80, 0x00, 0x00, 0xFF, 0x7F, 0x00, 0x00, 0x70, 0x11]))) := by
  decide

/-- V45.14: eight channels. -/
theorem test_repack_s16_channels :
    answerOf (exec (.repackS16 [smp [256], smp [-256], smp [1], smp [2], smp [3], smp [4], smp [5],
        smp [6]]) fresh) =
      some (.result (.bytes (bs [0x00, 0x01, 0x00, 0xFF, 0x01, 0, 0x02, 0, 0x03, 0, 0x04, 0, 0x05, 0,
        0x06, 0]))) := by decide

/-- V45.3: no mask. -/
theorem test_repack_s24 :
    answerOf (exec (.repackS24in32 [smp [8388607, -8388608, -1, 16777216]]) fresh) =
      some (.result (.bytes (bs [0xFF, 0xFF, 0x7F, 0, 0, 0, 0x80, 0xFF, 0xFF, 0xFF, 0xFF, 0xFF, 0, 0, 0,
        1]))) := by decide

/-- V45.16, big. -/
theorem test_repack_s32 :
    answerOf (exec (.repackS32 [smp [1, -1], smp [2, -2]])
        { fresh with params := params .big 2 .noFrame }) =
      some (.result (.bytes (bs [0, 0, 0, 1, 0, 0, 0, 2, 0xFF, 0xFF, 0xFF, 0xFF, 0xFF, 0xFF, 0xFF,
        0xFE]))) := by decide

/-- The codes of R63 to R66. -/
theorem test_codes :
    [Status.okNoOutput, .okOutput, .error, .abort, .noSession].map (·.code) = [0, 1, 2, 3, 4] ∧
      [BufClass.streamMarker, .metadataHeader, .audioFrame, .otherMetadataHeader].map (·.code) =
        [0, 1, 2, 3] ∧
      [ErrorName.malformedStreamInfo, .trailingOrTruncatedData, .unsupportedSampleWidth,
        .unsupportedChannelCount, .notNegotiated, .frameDecodeError].map (·.code) =
        [1, 2, 3, 4, 5, 6] ∧
      [Severity.recoverable, .sessionFatal, .aborting].map (·.code) = [0, 1, 2] ∧
      [AbortReason.lengthMismatch, .channelRange, .widthRange, .frameShape, .shortBuffer].map (·.code) =
        [1, 2, 3, 4, 5] ∧
      [SampleFormat.s8, .s16, .s24in32, .s32].map (·.code) = [0, 1, 2, 3] := by decide

/-- R22 for the state of V46.14 and for `{1, none, some {44100,2,16}, some f16}`. -/
theorem test_registers :
    (mk true (some .shortBuffer) none none (params .little 2 .noFrame)).readStatus = 0b101101#6 ∧
      (ready .noFrame).readStatus = 0b000011#6 ∧
      (ready .noFrame).readDesc = .ok 0b010000001000001010110001000100#30 ∧
      (ready .noFrame).readFmt = .ok 0b101#3 ∧
      (ready .noFrame).readLayoutReg = .ok 0xFFFFFF31#32 ∧
      fresh.readDesc = .error .registerUnspecified := by decide

/-! ## Witnesses: for every statement with hypotheses, concrete states and operands that meet them all,
clause by clause, at the boundaries of each clause -/

/-- A negotiated state whose descriptor the invariant excludes. -/
def broken (c b : Nat) : State :=
  mk true none (some (dsc 44100 c b)) (some f16) (params .little c .noFrame)

/-- A state with a format and no descriptor. -/
def formatOnly : State := mk true none none (some f16) (params .little 2 .noFrame)

/-- A slice for each width the resolver supports, and two of widths it does not. -/
def si8 : Buffer := si 0x01 0xF4 0x00 0x70
def si24 : Buffer := si 0x17 0x70 0x03 0x70
def si32 : Buffer := si 0xFF 0xFF 0xFF 0xF0

theorem witness_DecodeOfEncodeIsIdentity :
    (∀ i ∈ [Instr.start, .stop, .push [], .headers [[], tag],
        .classStreamMarker (bs [0x66, 0x4C, 0x61, 0x43]), .classMetadataHeader (bs [0x80]),
        .classAudioFrame (bs [0xFF, 0xFB]), .classOtherMetadataHeader (bs [0x7F]), .classify [],
        .parseStreamInfo [], .layoutLookup 8, .resolveFormat (dsc 0xFFFFF 15 63), .decodeFrame audio,
        .interleave stereo, .narrow .s24in32 (smp [-1]), .repackS8 stereo, .repackS16 stereo,
        .repackS24in32 stereo, .repackS32 stereo], i.wellFormed tableMarker = true) := by decide

theorem witness_BufferDecodesToItsClassRow :
    classify tableMarker (bs [0x66, 0x4C, 0x61, 0x43]) = .ok .streamMarker ∧
      classify tableMarker (bs [0x80]) = .ok .metadataHeader ∧
      classify tableMarker (bs [0xFF, 0xF8]) = .ok .audioFrame ∧
      classify tableMarker (bs [0xFF, 0xF7]) = .ok .otherMetadataHeader ∧
      classify tableMarker [] = .error .shortBuffer ∧
      classify tableMarker (bs [0xFF]) = .error .shortBuffer := by decide

theorem witness_StepRunsTheDecodedOperation :
    ({ fresh with pending := [.command 2 [audio], .buffer []] } : State).pending =
        .command 2 [audio] :: [.buffer []] ∧
      decode fresh.params.marker (.command 2 [audio]) = .ok (.push audio) := by decide

theorem witness_StepWithoutAnOperation :
    fresh.pending = [] ∧
      ({ fresh with pending := [.buffer (bs [0xFF])] } : State).pending = .buffer (bs [0xFF]) :: [] ∧
      Buffer.isTooShort (bs [0xFF]) = true ∧ Buffer.isTooShort [] = true ∧
      ({ fresh with pending := [.bench 19 []] } : State).pending = .bench 19 [] :: [] ∧
      decode fresh.params.marker (.bench 19 []) = .error .benchCode ∧
      Reject.benchCode ≠ .shortBuffer := by decide

/-- One operation of each guarded kind outside a session, the second in a state with an abort latched as
well, which no run of host commands reaches. -/
theorem witness_OutsideASessionNothingChanges :
    (∀ i ∈ [Instr.push audio, .headers [tag, si16], .classStreamMarker tag, .classMetadataHeader si16,
        .classAudioFrame audio, .classOtherMetadataHeader tag], i.isGuarded = true) ∧
      (mk false none none none (params .little 2 .noFrame)).session = false ∧
      (mk false (some .frameShape) none none (params .little 2 .noFrame)).session = false := by decide

theorem witness_LatchedAbortAnswersAndChangesNothing :
    (∀ i ∈ [Instr.push audio, .headers [tag, si16], .classStreamMarker tag, .classMetadataHeader si16,
        .classAudioFrame audio, .classOtherMetadataHeader tag], i.isGuarded = true) ∧
      ({ fresh with aborted := some .frameShape } : State).session = true ∧
      ({ fresh with aborted := some .frameShape } : State).aborted = some .frameShape := by decide

/-- Two commands, the second a HEADERS, before a START that is not among them. -/
theorem witness_LatchSurvivesEveryPushAndHeaders :
    let ps : List Packet := [.command 2 [audio], .command 3 [tag, si16]]
    let s : State := { fresh with aborted := some .shortBuffer, pending := ps ++ [.command 0 []] }
    (∀ p ∈ ps, p.isPushOrHeaders = true) ∧ ps ≠ [] ∧ s.pending = ps ++ [.command 0 []] ∧
      s.session = true ∧ s.aborted = some .shortBuffer := by decide

theorem witness_PushRunsTheRowOfItsBuffer :
    decode fresh.params.marker (.buffer audio) = .ok (.classAudioFrame audio) ∧
      decode fresh.params.marker (.buffer (bs [0x00])) = .ok (.classMetadataHeader (bs [0x00])) := by
  decide

theorem witness_MarkerAndOtherMetadataAreIgnored :
    Active fresh ∧ Active (ready .noFrame) ∧
      (Instr.classStreamMarker (bs [0x66, 0x4C, 0x61, 0x43])).wellFormed fresh.params.marker = true ∧
      (Instr.classOtherMetadataHeader (bs [0x04])).wellFormed fresh.params.marker = true ∧
      (Instr.classOtherMetadataHeader (bs [0xFF, 0xFC])).wellFormed fresh.params.marker = true := by
  decide

/-- A slice of each format. -/
theorem witness_HeaderPushStoresDescriptorAndFormat :
    Active fresh ∧ IsStreamInfo si8 ∧ (sliceWidth si8).toNat = formatBits .s8 ∧
      IsStreamInfo si16 ∧ (sliceWidth si16).toNat = formatBits .s16 ∧
      IsStreamInfo si24 ∧ (sliceWidth si24).toNat = formatBits .s24in32 ∧
      IsStreamInfo si32 ∧ (sliceWidth si32).toNat = formatBits .s32 := by decide

/-- The three clauses at 37, 39 and 38 bytes, and a wrong tag of 38. -/
theorem witness_FailedHeaderLeavesTheState :
    Active fresh ∧
      (Instr.classMetadataHeader (si16.take 37)).wellFormed fresh.params.marker = true ∧
      (si16.take 37).length = 37 ∧
      (Instr.classMetadataHeader (si16.set 3 0x23#8)).wellFormed fresh.params.marker = true ∧
      byteAt (si16.set 3 0x23#8) 3 ≠ 34#8 ∧
      (Instr.classMetadataHeader (si16 ++ [0#8])).wellFormed fresh.params.marker = true ∧
      38 < (si16 ++ [0#8]).length ∧ byteAt (si16 ++ [0#8]) 3 = 34#8 ∧
      byteAt (si16 ++ [0#8]) 1 = 0#8 ∧ byteAt (si16 ++ [0#8]) 2 = 0#8 ∧
      (Instr.classMetadataHeader si12).wellFormed fresh.params.marker = true ∧ si12.length = 38 ∧
      byteAt si12 1 = 0#8 ∧ byteAt si12 2 = 0#8 ∧ byteAt si12 3 = 34#8 ∧
      (∀ fmt, (sliceWidth si12).toNat ≠ formatBits fmt) := by
  refine ⟨by decide, by decide, by decide, by decide, by decide, by decide, by decide, by decide,
    by decide, by decide, by decide, by decide, by decide, by decide, by decide, ?_⟩
  intro fmt
  cases fmt <;> decide

/-- The parameters would answer a frame. -/
theorem witness_FrameBeforeFormatIsNotNegotiated :
    let s := mk true none none none (params .little 2 (.frame stereo 6))
    s.fmt = none ∧ Active s ∧ (Instr.classAudioFrame audio).wellFormed s.params.marker = true := by
  decide

theorem witness_PrimitiveWithoutFrameLeavesTheState :
    Active (ready .noFrame) ∧ Active (ready (.fail detail)) ∧
      (Instr.classAudioFrame audio).wellFormed (ready .noFrame).params.marker = true ∧
      (ready .noFrame).desc = some (dsc 44100 2 16) ∧ (ready .noFrame).fmt = some f16 ∧
      DescriptorInRange (dsc 44100 2 16) ∧
      primitive (ready .noFrame).params audio (dsc 44100 2 16).channelCount.toNat = .noFrame ∧
      primitive (ready (.fail detail)).params audio (dsc 44100 2 16).channelCount.toNat = .fail detail := by
  decide

theorem witness_DecodedFrameGivesOneOutputBuffer :
    let s := ready (.frame stereo 6)
    Active s ∧ (Instr.classAudioFrame audio).wellFormed s.params.marker = true ∧
      s.desc = some (dsc 44100 2 16) ∧ s.fmt = some f16 ∧ DescriptorInRange (dsc 44100 2 16) ∧
      primitive s.params audio (dsc 44100 2 16).channelCount.toNat = .frame stereo audio.length ∧
      HasShape (dsc 44100 2 16).channelCount.toNat 3 stereo := by decide

/-- One byte fewer than the buffer's six, and one more. -/
theorem witness_LengthMismatchAborts :
    (∀ k ∈ [5, 7], let s := ready (.frame stereo k)
      Active s ∧ (Instr.classAudioFrame audio).wellFormed s.params.marker = true ∧
        s.desc = some (dsc 44100 2 16) ∧ s.fmt = some f16 ∧ DescriptorInRange (dsc 44100 2 16) ∧
        primitive s.params audio (dsc 44100 2 16).channelCount.toNat = .frame stereo k ∧
        k ≠ audio.length) := by decide

/-- V44.8, and V44.7's single array. -/
theorem witness_WrongFrameShapeAborts :
    (∀ fr ∈ [[smp [1, 2], smp [3]], [smp [1]]], let s := ready (.frame fr 6)
      Active s ∧ (Instr.classAudioFrame audio).wellFormed s.params.marker = true ∧
        s.desc = some (dsc 44100 2 16) ∧ s.fmt = some f16 ∧ DescriptorInRange (dsc 44100 2 16) ∧
        primitive s.params audio (dsc 44100 2 16).channelCount.toNat = .frame fr audio.length) ∧
      (∀ fr ∈ [[smp [1, 2], smp [3]], [smp [1]]], ∀ n,
        ¬ HasShape (dsc 44100 2 16).channelCount.toNat n fr) := by
  refine ⟨by decide, ?_⟩
  intro fr hfr n h
  simp only [List.mem_cons, List.not_mem_nil, or_false] at hfr
  rcases hfr with rfl | rfl
  · have h1 := h.2 (smp [1, 2]) (by simp)
    have h2 := h.2 (smp [3]) (by simp)
    exact absurd (h1.trans h2.symm) (by decide)
  · exact absurd h.1 (by decide)

/-- No channel, nine channels, a width of 12, and both (V44.12 to V44.14). -/
theorem witness_DescriptorOutOfRangeAborts :
    (∀ cb ∈ [(0, 16), (9, 16), (2, 12), (9, 12)], let s := broken cb.1 cb.2
      s.desc = some (dsc 44100 cb.1 cb.2) ∧ s.fmt = some f16 ∧
        ¬ DescriptorInRange (dsc 44100 cb.1 cb.2) ∧ Active s ∧
        (Instr.classAudioFrame audio).wellFormed s.params.marker = true) := by decide

theorem witness_ShortBufferAborts : Active fresh ∧ Active (ready .noFrame) := by decide

theorem witness_FormatWithoutDescriptorFaults :
    formatOnly.fmt = some f16 ∧ formatOnly.desc = none := by decide

theorem witness_HeadersProposeTheFormat :
    Active fresh ∧ IsStreamInfo si24 ∧ (sliceWidth si24).toNat = formatBits .s24in32 ∧
      fresh.params.identTag.toList ++ [] = tag := by decide

/-- Each of the five failures. -/
theorem witness_HeadersFailQuietly :
    Active fresh ∧ [tag].length < 2 ∧ (([tag.take 7, si16] : List Buffer).getD 0 []).length < 8 ∧
      (([bs [1, 2, 3, 4, 5, 6, 7, 9], si16] : List Buffer).getD 0 []).take 8 ≠
        fresh.params.identTag.toList ∧
      ¬ IsStreamInfo (([tag, si16.take 37] : List Buffer).getD 1 []) ∧
      (∀ fmt, (sliceWidth (([tag, si12] : List Buffer).getD 1 [])).toNat ≠ formatBits fmt) := by
  refine ⟨by decide, by decide, by decide, by decide, by decide, ?_⟩
  intro fmt
  cases fmt <;> decide

theorem witness_ClassifyAnswersByPriority :
    Buffer.isTooShort [] = true ∧ Buffer.isTooShort (bs [0xFF]) = true ∧
      (classRow .streamMarker (bs [0x66, 0x4C, 0x61, 0x43])).wellFormed fresh.params.marker = true ∧
      (classRow .metadataHeader (bs [0x00])).wellFormed fresh.params.marker = true ∧
      (classRow .audioFrame (bs [0xFF, 0xFB])).wellFormed fresh.params.marker = true ∧
      (classRow .otherMetadataHeader (bs [0xFE])).wellFormed fresh.params.marker = true := by decide

/-- The four sync patterns, the two beside them, and a first byte that is not FF. -/
theorem witness_SyncPatternIsTheAudioFrame :
    (∀ b1 ∈ bs [0xF7, 0xF8, 0xF9, 0xFA, 0xFB, 0xFC],
        0xFF#8 :: b1 :: [] ≠ fresh.params.marker.toList) ∧
      0xFE#8 :: 0xF8#8 :: [] ≠ fresh.params.marker.toList := by decide

theorem witness_ShortSliceIsMalformed : (si16.take 37).length < 38 ∧ ([] : Buffer).length < 38 := by
  decide

/-- A wrong type, length high byte, middle byte and low byte; a surplus byte; a whole slice. -/
theorem witness_ParseReadsTheSliceByItsBytes :
    (∀ b ∈ [si16.set 0 0x04#8, si16.set 1 1#8, si16.set 2 1#8, si16.set 3 0x23#8], 38 ≤ b.length ∧
        ¬ ((byteAt b 0).extractLsb' 0 7 = 0#7 ∧ byteAt b 1 = 0#8 ∧ byteAt b 2 = 0#8 ∧
          byteAt b 3 = 34#8)) ∧
      (∀ b ∈ [si16 ++ [0#8], si16, si16.set 0 0x80#8], 38 ≤ b.length ∧
        (byteAt b 0).extractLsb' 0 7 = 0#7 ∧ byteAt b 1 = 0#8 ∧ byteAt b 2 = 0#8 ∧
          byteAt b 3 = 34#8) ∧
      38 < (si16 ++ [0#8]).length ∧ si16.length = 38 := by decide

/-- V40.1 and V40.14: slices that differ in every bit the parser drops. -/
theorem witness_DiscardedFieldsDoNotMatter :
    let b := bs ([0x80, 0, 0, 0x22] ++ List.replicate 10 0xFF ++ [0x0A, 0xC4, 0x42] ++
      List.replicate 21 0xFF)
    si16.length = b.length ∧ (byteAt si16 0).extractLsb' 0 7 = (byteAt b 0).extractLsb' 0 7 ∧
      (∀ k ∈ [1, 2, 3, 14, 15, 16], byteAt si16 k = byteAt b k) ∧
      (byteAt si16 17).extractLsb' 4 4 = (byteAt b 17).extractLsb' 4 4 ∧ si16 ≠ b := by decide

theorem witness_LayoutLookupGivesTheRow :
    (∀ n ∈ [1#4, 2#4, 8#4], 1 ≤ n.toNat ∧ n.toNat ≤ 8) ∧ (0#4).toNat = 0 ∧ 8 < (9#4).toNat ∧
      8 < (15#4).toNat ∧ layout.Ok ∧ (7 : Fin 8).val + 1 = (8#4).toNat ∧
      (7 : Fin 8).val < (8#4).toNat := by decide

/-- The widths of V42.1 and the counts beside the range, with a width of V42.7. -/
theorem witness_ResolverIsTotalOnItsDomain :
    (dsc 44100 1 8).bitsPerSample.toNat = formatBits .s8 ∧
      (dsc 44100 8 32).bitsPerSample.toNat = formatBits .s32 ∧
      (1 ≤ (dsc 44100 1 8).channelCount.toNat ∧ (dsc 44100 1 8).channelCount.toNat ≤ 8) ∧
      (1 ≤ (dsc 44100 8 32).channelCount.toNat ∧ (dsc 44100 8 32).channelCount.toNat ≤ 8) ∧
      ¬ (1 ≤ (dsc 44100 9 16).channelCount.toNat ∧ (dsc 44100 9 16).channelCount.toNat ≤ 8) ∧
      ¬ (1 ≤ (dsc 44100 0 16).channelCount.toNat ∧ (dsc 44100 0 16).channelCount.toNat ≤ 8) ∧
      (∀ fmt, (dsc 44100 2 33).bitsPerSample.toNat ≠ formatBits fmt) := by
  refine ⟨by decide, by decide, by decide, by decide, by decide, by decide, ?_⟩
  intro fmt
  cases fmt <;> decide

/-- Each answer of the primitive (V44.2 to V44.8). -/
theorem witness_DecodeFrameFollowsThePrimitive :
    (∀ a ∈ [PrimAnswer.noFrame, .fail detail, .frame stereo 5, .frame stereo 6, .frame [[], []] 6,
        .frame [smp [1]] 6],
      (ready a).desc = some (dsc 44100 2 16) ∧ (ready a).fmt = some f16 ∧
        primitive (ready a).params audio (dsc 44100 2 16).channelCount.toNat = a) ∧
      DescriptorInRange (dsc 44100 2 16) ∧ 5 ≠ audio.length ∧ 6 = audio.length ∧
      HasShape (dsc 44100 2 16).channelCount.toNat 3 stereo ∧
      HasShape (dsc 44100 2 16).channelCount.toNat 0 [[], []] ∧
      (∀ n, ¬ HasShape (dsc 44100 2 16).channelCount.toNat n [smp [1]]) := by
  refine ⟨by decide, by decide, by decide, by decide, by decide, by decide, ?_⟩
  intro n h
  exact absurd h.1 (by decide)

/-- Two arrays, one array, and an empty frame of two. -/
theorem witness_InterleaveTransposesTheFrame :
    1 ≤ stereo.length ∧ HasShape stereo.length 3 stereo ∧ HasShape 1 3 [smp [5, 6, 7]] ∧
      HasShape 2 0 [[], []] := by decide

theorem witness_RaggedFramesAreRefused :
    (∀ n, ¬ HasShape [smp [1, 2], smp [3]].length n [smp [1, 2], smp [3]]) ∧ ([] : Frame) = [] := by
  refine ⟨fun n h => ?_, rfl⟩
  have h1 := h.2 (smp [1, 2]) (by simp)
  have h2 := h.2 (smp [3]) (by simp)
  exact absurd (h1.trans h2.symm) (by decide)

theorem witness_NarrowWritesContiguousContainers :
    0 < (smp [1, -2]).length ∧ 1 < (smp [1, -2]).length ∧ 0 < containerWidth .s8 ∧
      3 < containerWidth .s24in32 := by decide

theorem witness_RepackFormsLayOutTheFrame :
    1 ≤ stereo.length ∧ HasShape stereo.length 3 stereo ∧ 1 ≤ ([[], []] : Frame).length ∧
      HasShape ([[], []] : Frame).length 0 [[], []] := by decide

/-- The extreme samples of each container. -/
theorem witness_RepackedSamplesReadBack :
    (∀ x ∈ smp [127, -128], FitsContainer .s8 x) ∧ (∀ x ∈ smp [32767, -32768], FitsContainer .s16 x) ∧
      (∀ x ∈ smp [2147483647, -2147483648], FitsContainer .s24in32 x ∧ FitsContainer .s32 x) ∧
      HasShape 2 2 [smp [32767, -32768], smp [0, 1]] ∧
      (∀ a ∈ [smp [32767, -32768], smp [0, 1]], ∀ x ∈ a, FitsContainer .s16 x) ∧
      ¬ FitsContainer .s8 128#32 := by
  simp [FitsContainer, containerWidth, HasShape, smp]

theorem witness_NarrowWrapsAndNeverSaturates : 0 < (smp [128]).length := by decide

/-- The invariant of a negotiated session. -/
theorem witness_inv (a : PrimAnswer) (ps : List Packet) :
    SessionInv { ready a with pending := ps } := by
  refine ⟨⟨?_, ?_, ?_, ?_⟩, ?_⟩
  · intro h; cases h
  · exact ⟨(by intro h; cases h), (by intro h; cases h)⟩
  · intro d f hd hf
    cases hd
    cases hf
    rfl
  · intro d hd
    cases hd
    decide
  · intro h; cases h

/-- A header, a bench operation and an abort. -/
theorem witness_StepKeepsStreamInvariant :
    (∀ a ps, StreamInv { ready a with pending := ps }) ∧
      (∀ p ∈ [Packet.command 2 [si24], .bench 8 [[]], .buffer []],
        (nextOf (step { ready .noFrame with pending := [p] })).isSome = true) :=
  ⟨fun a ps => (witness_inv a ps).toStreamInv, by decide⟩

theorem witness_HostCommandsKeepSessionInvariant :
    (∀ a ps, SessionInv { ready a with pending := ps }) ∧
      (∀ p ∈ [Packet.command 0 [], .command 1 [], .command 2 [si24], .command 3 [tag, si16]],
        p.isCommand = true ∧
          ({ ready .noFrame with pending := [p] } : State).pending = p :: [] ∧
          (nextOf (step { ready .noFrame with pending := [p] })).isSome = true) :=
  ⟨witness_inv, by decide⟩

theorem witness_EveryHostCommandReturns :
    StreamInv (ready .noFrame) ∧
      (∀ i ∈ [Instr.start, .stop, .push audio, .headers [], .classAudioFrame audio],
        i.isGuarded = true ∨ i = .start ∨ i = .stop) :=
  ⟨(witness_inv .noFrame []).toStreamInv, by decide⟩

theorem witness_StepNeverWritesTheParameters :
    (nextOf (step { fresh with pending := [.command 3 [tag, si16]] })).isSome = true := by decide

/-- An operation of each clause, the PUSH one of an audio frame and one of the marker. -/
theorem witness_OnlyHeadersChangeDescriptorAndFormat :
    (∀ i ∈ [Instr.push audio, .push (bs [0x66, 0x4C, 0x61, 0x43]), .classAudioFrame audio,
        .decodeFrame audio],
      (nextOf (exec i (ready (.frame stereo 6)))).isSome = true ∧ i ≠ .start ∧ i ≠ .stop) ∧
      classify (ready (.frame stereo 6)).params.marker audio ≠ .ok .metadataHeader ∧
      classify (ready (.frame stereo 6)).params.marker (bs [0x66, 0x4C, 0x61, 0x43]) ≠
        .ok .metadataHeader := by decide

/-- Each internal operation; two that abort. -/
theorem witness_InternalOperationsChangeOnlyTheirAnswer :
    (∀ i ∈ [Instr.classify audio, .classify [], .parseStreamInfo si16, .layoutLookup 8,
        .resolveFormat (dsc 0 2 16), .decodeFrame audio, .interleave stereo, .narrow .s8 [],
        .repackS8 stereo, .repackS16 stereo, .repackS24in32 stereo, .repackS32 stereo],
      i.isInternal = true ∧ (nextOf (exec i (ready (.frame stereo 5)))).isSome = true) := by decide

/-- A state under the invariant and a step that latches another reason. -/
theorem witness_RangeAbortsAreUnreachable :
    StreamInv { ready (.frame stereo 5) with pending := [.command 2 [audio]] } ∧
      stateOf (step { ready (.frame stereo 5) with pending := [.command 2 [audio]] }) =
        some (true, some .lengthMismatch, some (dsc 44100 2 16), some f16) :=
  ⟨(witness_inv _ _).toStreamInv, by decide⟩

/-- A response of each status. -/
theorem witness_ResponsesHaveAtMostOneOutputOrEvent :
    answerOf (exec (.push audio) (ready (.frame [[], []] 6))) = some (outputAnswer []) ∧
      answerOf (exec (.push si16) fresh) =
        some (okNoOutput (some .metadataHeader) 1 [.negotiate f16]) ∧
      answerOf (exec (.push audio) fresh) =
        some (errorAnswer .audioFrame .notNegotiated .recoverable none) ∧
      answerOf (exec (.push []) fresh) = some (abortAnswer .shortBuffer) ∧
      answerOf (exec (.headers []) (mk false none none none (params .little 2 .noFrame))) =
        some noSessionAnswer ∧
      (Instr.push audio).isInternal = false ∧ (Instr.headers []).isInternal = false := by decide

/-- The three conditions, and both ends of Active's clause. -/
theorem witness_ConditionMovesAsStated :
    (mk false none none none (params .little 2 .noFrame)).condition = .idle ∧
      ({ fresh with aborted := some .widthRange } : State).condition = .aborted ∧
      fresh.condition = .active ∧ (Instr.push []).isGuarded = true ∧
      (nextOf (exec (.push []) fresh)).map (·.condition) = some .aborted ∧
      (nextOf (exec (.push audio) fresh)).map (·.condition) = some .active := by decide

/-- A stereo 24-bit header over a 16-bit session, then a frame. -/
theorem witness_HeaderIsInForceForTheNextCommand :
    let s := { ready (.frame stereo 6) with pending := [.command 2 [si24], .command 2 [audio]] }
    Active s ∧ IsStreamInfo si24 ∧ (sliceWidth si24).toNat = formatBits .s24in32 ∧
      (Instr.classAudioFrame audio).wellFormed s.params.marker = true ∧
      s.pending = .command 2#2 [si24] :: .command 2#2 [audio] :: [] ∧
      primitive s.params audio (sliceChannels si24).toNat = .frame stereo audio.length ∧
      HasShape (sliceChannels si24).toNat 3 stereo := by decide

theorem witness_StatusRegisterShowsTheState :
    fresh.aborted = none ∧ ({ fresh with aborted := some .shortBuffer } : State).aborted =
      some .shortBuffer := by decide

theorem witness_DescriptorRegistersShowTheState :
    fresh.fmt = none ∧ (ready .noFrame).desc = some (dsc 44100 2 16) ∧
      (ready .noFrame).fmt = some f16 ∧ formatOnly.fmt = some f16 ∧ formatOnly.desc = none := by decide

end Sys2Proof.Tests
end

section
/-! SUPPORT. START and STOP (46_session_commands.md R191, R192), and the quiet answer over the state. -/

namespace Sys2Proof.Machine

/-- The machine's quiet response is the claims' `okNoOutput`; no other field changes. -/
theorem State.respond_quietOk (s : State) (cls : Option BufClass) (consumed : Nat)
    (events : List Event) :
    s.respond (.quietOk cls consumed events) =
      { s with answer := some (okNoOutput cls consumed events) } := rfl

/-- START's arm of the dispatch: no guard comes before it (D22). -/
theorem exec_start (s : State) :
    exec .start s = .next ((s.emptied true).respond (.quietOk none 0 [])) := rfl

/-- STOP's arm of the dispatch: no guard comes before it (D22). -/
theorem exec_stop (s : State) :
    exec .stop s = .next ((s.emptied false).respond (.quietOk none 0 [])) := rfl

/-- Settles O7: each of the two empties the state and answers quietly, under no guard. -/
theorem startAndStopLeaveTheEmptyState : Obligations.StartAndStopLeaveTheEmptyState := by
  intro s
  constructor
  · rw [exec_start, State.respond_quietOk]
    simp
  · rw [exec_stop, State.respond_quietOk]
    simp

end Sys2Proof.Machine
end

section
/-! SUPPORT. PARSE_STREAMINFO (40_streaminfo_parser.md R82): what it answers to a short slice. -/

namespace Sys2Proof.Machine

/-- A parse that raises is reported by PARSE_STREAMINFO as that error, without a detail; no other
field changes. -/
theorem exec_parseStreamInfo_of_error {b : Buffer} {e : ErrorName} (s : State)
    (h : parseStreamInfo b = .error e) :
    exec (.parseStreamInfo b) s =
      .next { s with answer := some (.result (.error e none)) } := by
  change execParseStreamInfo b s = _
  rw [execParseStreamInfo, h]
  rfl

/-- The length check comes before every other one (R82, R83). -/
theorem parseStreamInfo_of_short {b : Buffer} (h : b.length < 38) :
    parseStreamInfo b = .error .malformedStreamInfo := by
  rw [parseStreamInfo_eq, if_pos h]

/-- Settles O28: the parse of a short slice raises, and the step reports what the parse raises. -/
theorem shortSliceIsMalformed : Obligations.ShortSliceIsMalformed := fun s _ h =>
  exec_parseStreamInfo_of_error s (parseStreamInfo_of_short h)

end Sys2Proof.Machine
end

section
/-! SUPPORT. RESOLVE_FORMAT (42_format_resolver.md R111 to R118): what it reports of each answer of the
resolver, on and off its domain. -/

namespace Sys2Proof.Machine

/-- A format that resolves is reported by RESOLVE_FORMAT as it stands; no other field changes. -/
theorem exec_resolveFormat_of_ok {d : StreamDescriptor} {f : OutputFormat} {s : State}
    (h : resolveFormat s.params.layout d = .ok f) :
    exec (.resolveFormat d) s = .next { s with answer := some (.result (.format f)) } := by
  change execResolveFormat d s = _
  rw [execResolveFormat, h]
  rfl

/-- A descriptor that does not resolve is reported by RESOLVE_FORMAT as the resolver's error, without a
detail; no other field changes. -/
theorem exec_resolveFormat_of_error {d : StreamDescriptor} {e : ErrorName} {s : State}
    (h : resolveFormat s.params.layout d = .error e) :
    exec (.resolveFormat d) s = .next { s with answer := some (.result (.error e none)) } := by
  change execResolveFormat d s = _
  rw [execResolveFormat, h]
  rfl

/-- Settles O32: the resolver's answer by the width first and then by the count (D17), each reported by
the step. -/
theorem resolverIsTotalOnItsDomain : Obligations.ResolverIsTotalOnItsDomain := by
  intro s d
  refine ⟨fun fmt hw => ⟨fun hc => ?inDomain, fun hc => ?countOutside⟩, fun hw => ?widthOutside⟩
  case inDomain =>
    refine exec_resolveFormat_of_ok ?_
    rw [resolveFormat_of_width _ d fmt hw, if_pos hc]
  case countOutside =>
    refine exec_resolveFormat_of_error ?_
    rw [resolveFormat_of_width _ d fmt hw, if_neg hc]
  case widthOutside =>
    exact exec_resolveFormat_of_error (resolveFormat_of_no_width _ d hw)

/-- Every supported width fits the descriptor's six bits (R112). -/
theorem toNat_ofNat_formatBits (fmt : SampleFormat) :
    (BitVec.ofNat 6 (formatBits fmt)).toNat = formatBits fmt := by
  cases fmt <;> rfl

/-- Settles O33: nine is a count outside 1 to 8, so O32's second clause answers. -/
theorem nineChannelsAreRejected : Obligations.NineChannelsAreRejected := by
  intro s rate fmt
  obtain ⟨supported, -⟩ := resolverIsTotalOnItsDomain s
    { sampleRate := rate, channelCount := 9#4, bitsPerSample := BitVec.ofNat 6 (formatBits fmt) }
  obtain ⟨-, countOutside⟩ := supported fmt (toNat_ofNat_formatBits fmt)
  have hnine : ¬ (1 ≤ (9#4).toNat ∧ (9#4).toNat ≤ 8) := by decide
  exact countOutside hnine

end Sys2Proof.Machine
end

section
/-! SUPPORT. CLASSIFY (43_frame_classifier.md R121, R125): the class its answer reports. -/

namespace Sys2Proof.Machine

/-- A buffer that has a class is reported by CLASSIFY as that class; no other field changes. -/
theorem exec_classify_of_ok {b : Buffer} {c : BufClass} {s : State}
    (h : classify s.params.marker b = .ok c) :
    exec (.classify b) s = .next { s with answer := some (.result (.cls c)) } := by
  change execClassify b s = _
  rw [execClassify, h]
  rfl

/-- A buffer that has no class is reported by CLASSIFY as the classifier's abort, which is latched; no
other field changes. -/
theorem exec_classify_of_error {b : Buffer} {a : AbortReason} {s : State}
    (h : classify s.params.marker b = .error a) :
    exec (.classify b) s =
      .next { s with aborted := some a, answer := some (.result (.abort a)) } := by
  change execClassify b s = _
  rw [execClassify, h]
  rfl

/-- CLASSIFY reports a class exactly where the classifier gives that class. -/
theorem exec_classify_eq_cls_iff (b : Buffer) (c : BufClass) (s : State) :
    exec (.classify b) s = .next { s with answer := some (.result (.cls c)) } ↔
      classify s.params.marker b = .ok c := by
  refine ⟨fun h => ?_, exec_classify_of_ok⟩
  cases hcl : classify s.params.marker b with
  | ok c' =>
    rw [exec_classify_of_ok hcl] at h
    simpa using h
  | error a =>
    rw [exec_classify_of_error hcl] at h
    simp at h

/-- R54's row 3: a buffer other than the marker is an AudioFrame exactly if it has the sync pattern. -/
theorem classify_eq_audioFrame_iff {m : Vector Byte 4} {b : Buffer} (hb : b ≠ m.toList) :
    classify m b = .ok .audioFrame ↔ Buffer.isSync b = true := by
  have hnm : Buffer.isMarker m b = false := by simpa [Buffer.isMarker] using hb
  rw [classify_ok_iff]
  simp [classRow, Instr.wellFormed, hnm]

/-- The sync pattern on a buffer that has both its bytes (R53). -/
theorem isSync_cons_cons_iff (b0 b1 : Byte) (rest : Buffer) :
    Buffer.isSync (b0 :: b1 :: rest) = true ↔
      b0 = 0xFF#8 ∧ b1.extractLsb' 2 6 = 0b111110#6 := by
  simp [Buffer.isSync]

/-- Settles O27: CLASSIFY reports the classifier's class, which past the marker is AudioFrame exactly on
the sync pattern. -/
theorem syncPatternIsTheAudioFrame : Obligations.SyncPatternIsTheAudioFrame := by
  intro s b0 b1 rest hb
  rw [exec_classify_eq_cls_iff, classify_eq_audioFrame_iff hb, isSync_cons_cons_iff]

end Sys2Proof.Machine
end

section
/-! SUPPORT. DECODE_FRAME without a format (44_frame_decoder.md R143), on its own and as the AudioFrame
route of a PUSH: what each makes of an error the decoder raises. -/

namespace Sys2Proof.Machine

/-- The guards read the state alone, so bodies that agree on it answer the same under them. -/
theorem guarded_congr {s : State} {body body' : State → Result} (h : body s = body' s) :
    guarded s body = guarded s body' := by
  unfold guarded
  rw [h]

/-- Past its guards a PUSH is the route of the class CLASSIFY gives its buffer (R193). -/
theorem pushBody_of_class {b : Buffer} {c : BufClass} {s : State}
    (h : classify s.params.marker b = .ok c) : pushBody b s = route c b s := by
  rw [pushBody, h]

/-- PUSH runs the row of its buffer's class, under the same guards (R128; log 8). -/
theorem exec_push_eq_classRow {b : Buffer} {c : BufClass} {s : State}
    (h : classify s.params.marker b = .ok c) : exec (.push b) s = exec (classRow c b) s := by
  change guarded s (pushBody b) = _
  rw [guarded_congr (pushBody_of_class h)]
  cases c <;> rfl

/-- In an Active state the AudioFrame row is PUSH_FRAME (R195). -/
theorem exec_classAudioFrame_of_active {s : State} (h : Active s) (b : Buffer) :
    exec (.classAudioFrame b) s = pushFrame b s :=
  guarded_of_active h.1 h.2

/-- R143: without a format DECODE_FRAME raises before it reads the descriptor or asks the primitive. -/
theorem decodeFrame_of_no_format {s : State} (h : s.fmt = none) (b : Buffer) :
    decodeFrame s b = .ok (.raise .notNegotiated none) := by
  rw [decodeFrame, h]

/-- An error the decoder raises is reported by DECODE_FRAME as it stands; no other field changes. -/
theorem exec_decodeFrame_of_raise {b : Buffer} {e : ErrorName} {info : Option Detail} {s : State}
    (h : decodeFrame s b = .ok (.raise e info)) :
    exec (.decodeFrame b) s = .next { s with answer := some (.result (.error e info)) } := by
  change execDecodeFrame b s = _
  rw [execDecodeFrame, h]
  rfl

/-- An error the decoder raises is answered by PUSH_FRAME as that error of an AudioFrame (R230); no
other field changes. -/
theorem pushFrame_of_raise {b : Buffer} {e : ErrorName} {info : Option Detail} {s : State}
    (h : decodeFrame s b = .ok (.raise e info)) :
    pushFrame b s = .next { s with answer := some (.response (.raised .audioFrame e info)) } := by
  rw [pushFrame, h]
  rfl

/-- Settles O15: the decoder raises before it asks the primitive, and both DECODE_FRAME and the
AudioFrame row, which a PUSH of the buffer runs, answer what it raises. -/
theorem frameBeforeFormatIsNotNegotiated : Obligations.FrameBeforeFormatIsNotNegotiated := by
  intro s b hfmt
  have hraise := decodeFrame_of_no_format hfmt b
  refine ⟨exec_decodeFrame_of_raise hraise, fun hactive hwf => ?_⟩
  have hrow := (exec_classAudioFrame_of_active hactive b).trans (pushFrame_of_raise hraise)
  have hpush := exec_push_eq_classRow ((classify_ok_iff _ b .audioFrame).2 hwf)
  exact ⟨.raised .audioFrame .notNegotiated none, rfl, rfl, rfl, rfl, rfl, hpush.trans hrow, hrow⟩

end Sys2Proof.Machine
end

section
/-! SUPPORT. INTERLEAVE (45_sample_repacker.md R161): what it reports of a frame in the domain, and the
frame of one channel. -/

namespace Sys2Proof.Machine

/-- An operation on a frame reports its result as it stands where the frame is in the domain (R161,
U7); no other field changes. -/
theorem onFrame_of_hasShape {f : Frame} {n : Nat} (hc : 1 ≤ f.length) (h : HasShape f.length n f)
    (s : State) (r : OpResult) :
    onFrame f s r = .next { s with answer := some (.result r) } := by
  have hrect : Frame.isRectangular f = true := (isRectangular_iff f).2 ⟨hc, n, h⟩
  rw [onFrame, if_pos hrect, State.report_eq]

/-- In its domain INTERLEAVE reports the interleaved samples; no other field changes. -/
theorem exec_interleave_of_hasShape {f : Frame} {n : Nat} (hc : 1 ≤ f.length)
    (h : HasShape f.length n f) (s : State) :
    exec (.interleave f) s = .next { s with answer := some (.result (.samples (interleave f))) } :=
  onFrame_of_hasShape hc h s _

/-- R161's first branch, `C = 1`: the formula gives the one array back. -/
theorem interleave_singleton (a : List Sample) : interleave [a] = a := by
  have hshape : HasShape 1 a.length [a] := ⟨rfl, by simp⟩
  have hlen : (interleave [a]).length = a.length := by
    rw [interleave_length le_rfl hshape, Nat.mul_one]
  apply List.ext_getElem?
  intro i
  by_cases hi : i < a.length
  · have hget := interleave_getElem? le_rfl hshape i 0 hi Nat.one_pos
    simpa [hi] using hget
  · rw [List.getElem?_eq_none (by omega), List.getElem?_eq_none (by omega)]

/-- Settles O35: the step reports R161's sequence, whose length and entries are those of the formula for
every channel count, and which for one channel is that channel's array. -/
theorem interleaveTransposesTheFrame : Obligations.InterleaveTransposesTheFrame := by
  intro s f n hc hshape
  refine ⟨interleave f, exec_interleave_of_hasShape hc hshape s, interleave_length hc hshape, ?_, ?_⟩
  · intro i hi c hlt
    exact interleave_getElem? hc hshape i c hi hlt
  · rintro a rfl
    exact interleave_singleton a

end Sys2Proof.Machine
end

section
/-! SUPPORT. The decoder on the encoder's packets (30_encoding.md R54, R62; log 2): one lemma per operand
layout, and the bare buffers by the class CLASSIFY gives them. -/

namespace Sys2Proof

open Sys2Proof.Machine

/-- A bare buffer that has a class decodes to that class's row (R50, R54). -/
theorem decode_buffer_of_class {m : Vector Byte 4} {b : Buffer} {c : BufClass}
    (h : classify m b = .ok c) : decode m (.buffer b) = .ok (classRow c b) := by
  rw [decode, decodeBuffer_eq, h]

/-- A bare buffer CLASSIFY aborts on is rejected as short (R122; log 24). -/
theorem decode_buffer_of_abort {m : Vector Byte 4} {b : Buffer} {a : AbortReason}
    (h : classify m b = .error a) : decode m (.buffer b) = .error .shortBuffer := by
  rw [decode, decodeBuffer_eq, h]

/-- A class row with a buffer of its class is what its packet decodes to. -/
theorem decode_encode_classRow {m : Vector Byte 4} {c : BufClass} {b : Buffer}
    (h : (classRow c b).wellFormed m = true) :
    decode m (encode (classRow c b)) = .ok (classRow c b) := by
  have henc : encode (classRow c b) = .buffer b := by cases c <;> rfl
  rw [henc, decode_buffer_of_class ((classify_ok_iff m b c).2 h)]

theorem decodeOneFrame_encodeFrame (g : Frame → Instr) (f : Frame) :
    decodeOneFrame g (encodeFrame f) = .ok (g f) := by
  rw [decodeOneFrame, decodeFrameOperand_encodeFrame]

theorem decodeLookup_encoded (n : BitVec 4) :
    decodeLookup [[0#4 ++ n]] = .ok (.layoutLookup n) := by
  obtain ⟨hhigh, hlow⟩ := lookup_byte n
  rw [decodeLookup, if_pos hhigh, hlow]

theorem decodeResolve_encoded (d : StreamDescriptor) :
    decodeResolve [sampleBytes (0#2 ++ d.bits)] = .ok (.resolveFormat d) := by
  obtain ⟨hhigh, hlow⟩ := resolve_word d.bits
  simp only [sampleBytes, decodeResolve, sampleBytes_join]
  rw [if_pos hhigh, hlow, ofBits_bits]

theorem decodeNarrow_encoded (fmt : SampleFormat) (v : List Sample) :
    decodeNarrow [[0#6 ++ fmt.code], encodeSamples v] = .ok (.narrow fmt v) := by
  simp only [decodeNarrow, ofCode_code, decodeSamples_encodeSamples]

/-- Settles O1, by the operation: a host command and a one-buffer operation are read off their packet, a
class row is its buffer's class, and the other operands survive their layout. -/
theorem decodeOfEncodeIsIdentity : Obligations.DecodeOfEncodeIsIdentity := by
  intro m i hwf
  cases i with
  | start | stop | push | headers => rfl
  | classStreamMarker b => exact decode_encode_classRow (c := .streamMarker) hwf
  | classMetadataHeader b => exact decode_encode_classRow (c := .metadataHeader) hwf
  | classAudioFrame b => exact decode_encode_classRow (c := .audioFrame) hwf
  | classOtherMetadataHeader b => exact decode_encode_classRow (c := .otherMetadataHeader) hwf
  | classify | parseStreamInfo | decodeFrame => rfl
  | layoutLookup n => exact decodeLookup_encoded n
  | resolveFormat d => exact decodeResolve_encoded d
  | narrow fmt v => exact decodeNarrow_encoded fmt v
  | interleave f => exact decodeOneFrame_encodeFrame .interleave f
  | repackS8 f => exact decodeOneFrame_encodeFrame .repackS8 f
  | repackS16 f => exact decodeOneFrame_encodeFrame .repackS16 f
  | repackS24in32 f => exact decodeOneFrame_encodeFrame .repackS24in32 f
  | repackS32 f => exact decodeOneFrame_encodeFrame .repackS32 f

/-- Settles O3: the decoder follows CLASSIFY, whose one abort is ShortBuffer. -/
theorem bufferDecodesToItsClassRow : Obligations.BufferDecodesToItsClassRow := by
  intro m b
  refine ⟨fun c h => decode_buffer_of_class h, fun a h => ?_⟩
  obtain ⟨-, rfl⟩ := (classify_error_iff m b a).1 h
  exact ⟨rfl, decode_buffer_of_abort h⟩

/-- Settles O2, by running the decoder on the ten packets. -/
theorem specPatternsDecode : Obligations.SpecPatternsDecode := by
  unfold Obligations.SpecPatternsDecode
  decide

end Sys2Proof
end

section
/-! SUPPORT. The step as exec of one operation (46_session_commands.md R190; logs 1, 7, 16, 24), and the
two buffers too short to classify (43_frame_classifier.md R122). -/

namespace Sys2Proof.Machine

/-- A packet that decodes is run at the state with it taken. -/
theorem step_of_decode {s : State} {p : Packet} {rest : List Packet} {i : Instr}
    (hp : s.pending = p :: rest) (hi : decode s.params.marker p = .ok i) :
    step s = exec i (s.taken rest) := by
  simp only [step, hp, hi]

/-- A packet that does not decode is rejected at the state with it taken. -/
theorem step_of_reject {s : State} {p : Packet} {rest : List Packet} {why : Reject}
    (hp : s.pending = p :: rest) (hw : decode s.params.marker p = .error why) :
    step s = rejected why (s.taken rest) := by
  simp only [step, hp, hw]

/-- A packet is refused by the decoder's reason, but for a buffer too short to classify (log 16). -/
theorem rejected_of_ne_shortBuffer {why : Reject} (h : why ≠ .shortBuffer) (s : State) :
    rejected why s = .refused (.undecodable why) := by
  cases why with
  | shortBuffer => exact absurd rfl h
  | commandOperands | benchCode | benchOperands => rfl

theorem classify_of_tooShort {b : Buffer} (h : Buffer.isTooShort b = true) (m : Vector Byte 4) :
    classify m b = .error .shortBuffer :=
  (classify_error_iff m b .shortBuffer).2 ⟨h, rfl⟩

/-- Past its guards a PUSH aborts with what CLASSIFY aborts with (R193). -/
theorem pushBody_of_abort {b : Buffer} {a : AbortReason} {s : State}
    (h : classify s.params.marker b = .error a) : pushBody b s = .next (s.takeAbort a) := by
  rw [pushBody, h]

/-- A bare buffer too short to classify is answered as its PUSH is (log 24). -/
theorem rejected_shortBuffer_eq_push {b : Buffer} {s : State} (h : Buffer.isTooShort b = true) :
    rejected .shortBuffer s = exec (.push b) s := by
  have hbody := pushBody_of_abort (s := s) (classify_of_tooShort h _)
  change guarded s (fun s => .next (s.takeAbort .shortBuffer)) = guarded s (pushBody b)
  exact guarded_congr hbody.symm

/-- Every step that gives a next state is the identity, or exec of one operation at the state with its
packet taken: the operation the packet decodes to, or for a rejected short buffer a PUSH of no byte. -/
theorem step_next_cases {s t : State} (h : step s = .next t) :
    t = s ∨ ∃ p rest i, s.pending = p :: rest ∧ exec i (s.taken rest) = .next t ∧
      (decode s.params.marker p = .ok i ∨ i = .push []) := by
  rcases step_cases h with ⟨-, rfl⟩ | ⟨p, rest, hp, ⟨i, hi, hexec⟩ | ⟨-, hshort⟩⟩
  · exact .inl rfl
  · exact .inr ⟨p, rest, i, hp, hexec, .inl hi⟩
  · refine .inr ⟨p, rest, .push [], hp, ?_, .inr rfl⟩
    have hpush := rejected_shortBuffer_eq_push (b := []) (s := s.taken rest) (by decide)
    exact hpush.symm.trans hshort

/-- Settles O4: the state with the packet taken is the state with that list pending. -/
theorem stepRunsTheDecodedOperation : Obligations.StepRunsTheDecodedOperation :=
  fun _ _ _ _ hp hi => step_of_decode hp hi

/-- Settles O5: nothing pending, a buffer the decoder rejects as short, any other rejected packet. -/
theorem stepWithoutAnOperation : Obligations.StepWithoutAnOperation := by
  refine ⟨fun s hp => ?idle, fun s b rest hp hb => ?short, fun s p rest why hp hw hne => ?other⟩
  case idle => simp only [step, hp, idle]
  case short =>
    have hrej := decode_buffer_of_abort (classify_of_tooShort hb s.params.marker)
    exact (step_of_reject hp hrej).trans (rejected_shortBuffer_eq_push hb)
  case other => exact (step_of_reject hp hw).trans (rejected_of_ne_shortBuffer hne _)

/-- Settles O21: CLASSIFY aborts on both buffers, and an Active state lets the PUSH run. -/
theorem shortBufferAborts : Obligations.ShortBufferAborts := by
  rintro s ⟨hsession, hlatch⟩
  have hpush {b : Buffer} (hb : Buffer.isTooShort b = true) :
      exec (.push b) s = .next (s.takeAbort .shortBuffer) :=
    (guarded_of_active hsession hlatch).trans (pushBody_of_abort (classify_of_tooShort hb _))
  exact ⟨hpush (by decide), hpush (by decide)⟩

end Sys2Proof.Machine
end

section
/-! SUPPORT. The guards every PUSH, HEADERS and class row runs under (46_session_commands.md R201, R202),
and runs of PUSH and HEADERS with an abort latched. -/

namespace Sys2Proof.Machine

/-- A guarded operation is some body under the two guards. -/
theorem exec_eq_guarded {i : Instr} (hi : i.isGuarded = true) :
    ∃ body, ∀ s, exec i s = guarded s body := by
  cases i with
  | push b => exact ⟨pushBody b, fun _ => rfl⟩
  | headers hs => exact ⟨headersBody hs, fun _ => rfl⟩
  | classStreamMarker b => exact ⟨pushIgnored .streamMarker, fun _ => rfl⟩
  | classMetadataHeader b => exact ⟨pushHeader b, fun _ => rfl⟩
  | classAudioFrame b => exact ⟨pushFrame b, fun _ => rfl⟩
  | classOtherMetadataHeader b => exact ⟨pushIgnored .otherMetadataHeader, fun _ => rfl⟩
  | _ => cases hi

/-- Settles O8: the first guard answers before the body is reached. -/
theorem outsideASessionNothingChanges : Obligations.OutsideASessionNothingChanges := by
  intro s i hi hsession
  obtain ⟨body, hbody⟩ := exec_eq_guarded hi
  rw [hbody, guarded_of_noSession hsession]
  rfl

/-- Settles O9: the second guard answers before the body is reached. -/
theorem latchedAbortAnswersAndChangesNothing :
    Obligations.LatchedAbortAnswersAndChangesNothing := by
  intro s i a hi hsession hlatch
  obtain ⟨body, hbody⟩ := exec_eq_guarded hi
  rw [hbody, guarded_of_aborted hsession hlatch]
  rfl

/-- A PUSH or HEADERS packet decodes to a guarded operation, under every MARKER. -/
theorem decode_pushOrHeaders {p : Packet} (hp : p.isPushOrHeaders = true) (m : Vector Byte 4) :
    ∃ i, decode m p = .ok i ∧ i.isGuarded = true := by
  cases p with
  | command code bufs =>
    by_cases hpush : code = 2#2
    · subst hpush
      obtain ⟨b, rfl⟩ : ∃ b, bufs = [b] := by
        simpa [Packet.isPushOrHeaders, List.length_eq_one_iff] using hp
      exact ⟨.push b, rfl, rfl⟩
    · obtain rfl : code = 3#2 := by simpa [Packet.isPushOrHeaders, hpush] using hp
      exact ⟨.headers bufs, rfl, rfl⟩
  | buffer b => cases hp
  | bench code bufs => cases hp

/-- With an abort latched, a step that takes a PUSH or a HEADERS answers the abort and leaves S. -/
theorem step_of_latched {s : State} {p : Packet} {rest : List Packet} {a : AbortReason}
    (hp : p.isPushOrHeaders = true) (hpend : s.pending = p :: rest) (hsession : s.session = true)
    (hlatch : s.aborted = some a) :
    step s = .next { s with pending := rest, answer := some (abortAnswer a) } := by
  obtain ⟨i, hdec, hi⟩ := decode_pushOrHeaders hp s.params.marker
  rw [step_of_decode hpend hdec,
    latchedAbortAnswersAndChangesNothing (s.taken rest) i a hi hsession hlatch]
  rfl

/-- One more step of a run. -/
theorem run_succ_of_step {s t : State} (h : step s = .next t) (k : Nat) :
    Sys2Proof.core.run (k + 1) s = Sys2Proof.core.run k t := by
  have hcore : Sys2Proof.core.step s = .next t := h
  simp only [Host.Core.run, hcore]

/-- Settles O10, by induction on the packets: each step leaves a state that meets the premises again. -/
theorem latchSurvivesEveryPushAndHeaders : Obligations.LatchSurvivesEveryPushAndHeaders := by
  intro ps rest
  induction ps with
  | nil => exact fun _ _ _ hne => absurd rfl hne
  | cons p ps ih =>
    intro s a hall _ hpend hsession hlatch
    have hstep := step_of_latched (hall p List.mem_cons_self) hpend hsession hlatch
    rw [List.length_cons, run_succ_of_step hstep]
    cases ps with
    | nil => rfl
    | cons q qs =>
      exact ih _ a (fun x hx => hall x (List.mem_cons_of_mem p hx)) (List.cons_ne_nil q qs) rfl
        hsession hlatch

end Sys2Proof.Machine
end

section
/-! SUPPORT. A PUSH as the row of its buffer's class (43_frame_classifier.md R128; log 8), the rows past
their guards, and CLASSIFY on its own. -/

namespace Sys2Proof.Machine

/-- Settles O11: the decoder reads the row of the class the PUSH finds. -/
theorem pushRunsTheRowOfItsBuffer : Obligations.PushRunsTheRowOfItsBuffer := by
  intro s b i hdec
  cases hclass : classify s.params.marker b with
  | ok c =>
    rw [decode_buffer_of_class hclass] at hdec
    cases hdec
    exact exec_push_eq_classRow hclass
  | error a =>
    rw [decode_buffer_of_abort hclass] at hdec
    cases hdec

/-- In an Active state a class row is its route (R128). -/
theorem exec_classRow_of_active {s : State} (h : Active s) (c : BufClass) (b : Buffer) :
    exec (classRow c b) s = route c b s := by
  obtain ⟨hsession, hlatch⟩ := h
  cases c <;> exact guarded_of_active hsession hlatch

/-- In an Active state a PUSH of a buffer and the row of its class both answer what the route does. -/
theorem push_and_row_of_route {s : State} {r : Result} {b : Buffer} (c : BufClass) (h : Active s)
    (hwf : (classRow c b).wellFormed s.params.marker = true) (hroute : route c b s = r) :
    exec (.push b) s = r ∧ exec (classRow c b) s = r := by
  have hrow : exec (classRow c b) s = r := (exec_classRow_of_active h c b).trans hroute
  exact ⟨(exec_push_eq_classRow ((classify_ok_iff _ b c).2 hwf)).trans hrow, hrow⟩

/-- Settles O12: the two classes' routes answer quietly and do nothing else. -/
theorem markerAndOtherMetadataAreIgnored : Obligations.MarkerAndOtherMetadataAreIgnored := by
  intro s b hactive
  exact ⟨fun hwf => push_and_row_of_route .streamMarker hactive hwf rfl,
    fun hwf => push_and_row_of_route .otherMetadataHeader hactive hwf rfl⟩

/-- Settles O25: CLASSIFY reports the classifier, which aborts on the short buffers and else gives the
class whose row the buffer fits. -/
theorem classifyAnswersByPriority : Obligations.ClassifyAnswersByPriority := by
  intro s b
  refine ⟨fun hshort => ?_, fun c hwf => ?_⟩
  · exact exec_classify_of_error (classify_of_tooShort hshort _)
  · exact exec_classify_of_ok ((classify_ok_iff _ b c).2 hwf)

/-- Settles O26: the conditions are those of the classifier's answers, and it gives exactly one. -/
theorem classConditionsAreExclusiveAndTotal : Obligations.ClassConditionsAreExclusiveAndTotal := by
  intro m b
  cases hclass : classify m b with
  | error a =>
    refine .inl ⟨((classify_error_iff m b a).1 hclass).1, fun c => ?_⟩
    rw [Bool.eq_false_iff, ne_eq, ← classify_ok_iff, hclass]
    exact nofun
  | ok c =>
    refine .inr ⟨?_, c, (classify_ok_iff m b c).1 hclass, fun c' hwf => ?_⟩
    · rw [Bool.eq_false_iff]
      intro hshort
      rw [classify_of_tooShort hshort] at hclass
      cases hclass
    · have hclass' := (classify_ok_iff m b c').2 hwf
      rw [hclass] at hclass'
      cases hclass'
      rfl

end Sys2Proof.Machine
end

section
/-! SUPPORT. The STREAMINFO slice (40_streaminfo_parser.md R82 to R89): what the parser makes of it by its
bytes, and PARSE_STREAMINFO on its own. -/

namespace Sys2Proof.Machine

/-- R83: past the length check a wrong tag is malformed. -/
theorem parseStreamInfo_of_untagged {b : Buffer} (h : tagOk b = false) :
    parseStreamInfo b = .error .malformedStreamInfo := by
  rw [parseStreamInfo_eq, if_pos h, ite_self]

/-- R84: a surplus after a right tag. -/
theorem parseStreamInfo_of_surplus {b : Buffer} (htag : tagOk b = true) (hlen : 38 < b.length) :
    parseStreamInfo b = .error .trailingOrTruncatedData := by
  rw [parseStreamInfo_eq, if_neg (by omega), if_neg (by simp [htag]), if_pos hlen]

/-- R85: a STREAMINFO slice gives the descriptor its bytes hold. -/
theorem parseStreamInfo_of_slice {b : Buffer} (h : IsStreamInfo b) :
    parseStreamInfo b = .ok (sliceDescriptor b) :=
  (parseStreamInfo_ok_iff b _).2 ⟨h, rfl⟩

/-- A descriptor that parses is reported by PARSE_STREAMINFO as it stands; no other field changes. -/
theorem exec_parseStreamInfo_of_ok {b : Buffer} {d : StreamDescriptor} (s : State)
    (h : parseStreamInfo b = .ok d) :
    exec (.parseStreamInfo b) s = .next { s with answer := some (.result (.descriptor d)) } := by
  change execParseStreamInfo b s = _
  rw [execParseStreamInfo, h]
  rfl

/-- Settles O29: the parser's three answers past the length check, each reported by the step. -/
theorem parseReadsTheSliceByItsBytes : Obligations.ParseReadsTheSliceByItsBytes := by
  intro s b _ tagged
  have htag : tagOk b = true ↔ tagged := tagOk_iff b
  refine ⟨fun hwrong => ?wrongTag, fun hright hlen => ?surplus, fun hright hlen => ?slice⟩
  case wrongTag =>
    have huntagged : tagOk b = false := by simpa [← htag] using hwrong
    exact exec_parseStreamInfo_of_error s (parseStreamInfo_of_untagged huntagged)
  case surplus =>
    exact exec_parseStreamInfo_of_error s (parseStreamInfo_of_surplus (htag.2 hright) hlen)
  case slice => exact exec_parseStreamInfo_of_ok s (parseStreamInfo_of_slice ⟨hlen, hright⟩)

/-- A byte's high half is its high four bits. -/
theorem shiftRight_four_eq (x : Byte) : x >>> 4 = (x.extractLsb' 4 4).setWidth 8 := by
  revert x; decide

/-- Two buffers agree on the bits of a slice that PARSE_STREAMINFO keeps (R85, R89): the type, the body
length, bytes 14 to 16 and the high half of byte 17. -/
structure AgreeOnKeptBits (b b' : Buffer) : Prop where
  type : (byteAt b 0).extractLsb' 0 7 = (byteAt b' 0).extractLsb' 0 7
  bytes : ∀ k ∈ [1, 2, 3, 14, 15, 16], byteAt b k = byteAt b' k
  half : (byteAt b 17).extractLsb' 4 4 = (byteAt b' 17).extractLsb' 4 4

theorem AgreeOnKeptBits.tagOk_eq {b b' : Buffer} (h : AgreeOnKeptBits b b') :
    tagOk b = tagOk b' := by
  rw [Bool.eq_iff_iff, tagOk_iff, tagOk_iff, h.type, h.bytes 1 (by simp), h.bytes 2 (by simp),
    h.bytes 3 (by simp)]

theorem AgreeOnKeptBits.sliceDescriptor_eq {b b' : Buffer} (h : AgreeOnKeptBits b b') :
    sliceDescriptor b = sliceDescriptor b' := by
  simp only [sliceDescriptor, sliceRate, sliceChannels, sliceWidth, shiftRight_four_eq,
    h.bytes 14 (by simp), h.bytes 15 (by simp), h.bytes 16 (by simp), h.half]

/-- Settles O30: the parser reads the length, the tag test and the three fields, and each is a function of
the kept bits. -/
theorem discardedFieldsDoNotMatter : Obligations.DiscardedFieldsDoNotMatter := by
  intro s b b' hlen htype hbytes hhalf
  have hagree : AgreeOnKeptBits b b' := ⟨htype, hbytes, hhalf⟩
  have hparse : parseStreamInfo b = parseStreamInfo b' := by
    rw [parseStreamInfo_eq, parseStreamInfo_eq, hlen, hagree.tagOk_eq, hagree.sliceDescriptor_eq]
  change execParseStreamInfo b s = execParseStreamInfo b' s
  rw [execParseStreamInfo, execParseStreamInfo, hparse]

end Sys2Proof.Machine
end

section
/-! SUPPORT. A metadata header in a PUSH (46_session_commands.md R194) and HEADERS (R198): the parse, the
resolver, and what is stored. -/

namespace Sys2Proof.Machine

/-- The count of a slice is a three-bit field and one (R57), so it is in range. -/
theorem sliceChannels_range (b : Buffer) :
    1 ≤ (sliceChannels b).toNat ∧ (sliceChannels b).toNat ≤ 8 := by
  unfold sliceChannels
  generalize byteAt b 16 = x
  revert x
  decide

/-- A slice with a supported width resolves to the format R114 assembles. -/
theorem resolveFormat_slice {b : Buffer} {fmt : SampleFormat} (t : LayoutTable)
    (h : (sliceWidth b).toNat = formatBits fmt) :
    resolveFormat t (sliceDescriptor b) = .ok (assembledFormat t (sliceDescriptor b) fmt) := by
  rw [resolveFormat_of_width t (sliceDescriptor b) fmt h]
  exact if_pos (sliceChannels_range b)

/-- A slice is longer than the marker and its type is 0, so its class is MetadataHeader (R54). -/
theorem wellFormed_metadataHeader_of_slice {b : Buffer} (h : IsStreamInfo b) (m : Vector Byte 4) :
    (classRow .metadataHeader b).wellFormed m = true := by
  obtain ⟨hlen, htype, -⟩ := h
  have hmarker : Buffer.isMarker m b = false := by
    rw [Bool.eq_false_iff]
    intro hm
    have := ((isMarker_iff m b).1 hm).1
    omega
  cases b with
  | nil => simp at hlen
  | cons b0 rest =>
    have hzero : Buffer.isTypeZero (b0 :: rest) = true := by
      simpa [Buffer.isTypeZero, byteAt] using htype
    simp [classRow, Instr.wellFormed, hmarker, hzero]

/-- PUSH_HEADER stores what parses and resolves, and offers the format (R194). -/
theorem pushHeader_of_ok {b : Buffer} {d : StreamDescriptor} {f : OutputFormat} {s : State}
    (hparse : parseStreamInfo b = .ok d) (hres : resolveFormat s.params.layout d = .ok f) :
    pushHeader b s =
      .next ((s.storeFormat d f).respond (.quietOk (some .metadataHeader) 1 [.negotiate f])) := by
  simp only [pushHeader, hparse, hres]

/-- PUSH_HEADER raises what the parser raises (R230). -/
theorem pushHeader_of_parse_error {b : Buffer} {e : ErrorName} {s : State}
    (h : parseStreamInfo b = .error e) :
    pushHeader b s = .next (s.takeError .metadataHeader e none) := by
  simp only [pushHeader, h]

/-- PUSH_HEADER raises what the resolver raises (R230). -/
theorem pushHeader_of_resolve_error {b : Buffer} {d : StreamDescriptor} {e : ErrorName} {s : State}
    (hparse : parseStreamInfo b = .ok d) (hres : resolveFormat s.params.layout d = .error e) :
    pushHeader b s = .next (s.takeError .metadataHeader e none) := by
  simp only [pushHeader, hparse, hres]

/-- Settles O13: the slice is a MetadataHeader, parses and resolves, and its route stores both. -/
theorem headerPushStoresDescriptorAndFormat : Obligations.HeaderPushStoresDescriptorAndFormat := by
  intro s b fmt hactive hslice hwidth
  refine push_and_row_of_route .metadataHeader hactive
    (wellFormed_metadataHeader_of_slice hslice _) ?_
  exact pushHeader_of_ok (parseStreamInfo_of_slice hslice) (resolveFormat_slice _ hwidth)

/-- A MetadataHeader buffer's type bits are 0 (R52). -/
theorem type_zero_of_metadataHeader {m : Vector Byte 4} {b : Buffer}
    (h : (Instr.classMetadataHeader b).wellFormed m = true) : (byteAt b 0).extractLsb' 0 7 = 0#7 := by
  simp only [Instr.wellFormed, Bool.and_eq_true] at h
  obtain ⟨-, hzero⟩ := h
  cases b with
  | nil => cases hzero
  | cons b0 rest => simpa [Buffer.isTypeZero, byteAt] using hzero

/-- Settles O14: the first check that fails decides what the parser or the resolver raises, and the route
answers that error with the severity of R223. -/
theorem failedHeaderLeavesTheState : Obligations.FailedHeaderLeavesTheState := by
  intro s b hactive hwf tagged e
  have htag : tagOk b = true ↔ tagged := by
    rw [tagOk_iff]
    exact and_iff_right (type_zero_of_metadataHeader hwf)
  refine ⟨fun hbad => ?malformed, fun hlen hright => ?surplus, fun hlen hright hwidth => ?width⟩ <;>
    refine push_and_row_of_route .metadataHeader hactive hwf ?_
  case malformed =>
    refine pushHeader_of_parse_error ?_
    rcases hbad with hshort | hwrong
    · exact parseStreamInfo_of_short hshort
    · exact parseStreamInfo_of_untagged (by simpa [← htag] using hwrong)
  case surplus =>
    exact pushHeader_of_parse_error (parseStreamInfo_of_surplus (htag.2 hright) hlen)
  case width =>
    have hslice : IsStreamInfo b := ⟨hlen, type_zero_of_metadataHeader hwf, hright⟩
    exact pushHeader_of_resolve_error (parseStreamInfo_of_slice hslice)
      (resolveFormat_of_no_width _ _ hwidth)

/-- HEADERS proposes a format exactly with the tag, a slice that parses and a descriptor that resolves
(R198). -/
theorem headersFormat_eq_some_iff {ps : Params} {hdrs : List Buffer} {d : StreamDescriptor}
    {f : OutputFormat} : headersFormat ps hdrs = some (d, f) ↔
      ∃ h0 h1 rest, hdrs = h0 :: h1 :: rest ∧ identOk ps.identTag h0 = true ∧
        parseStreamInfo h1 = .ok d ∧ resolveFormat ps.layout d = .ok f := by
  constructor
  · intro h
    unfold headersFormat at h
    split at h
    · rename_i h0 h1 rest
      split at h
      · rename_i hident
        split at h
        · cases h
        · rename_i d' hparse
          split at h
          · cases h
          · rename_i f' hres
            cases h
            exact ⟨h0, h1, rest, rfl, hident, hparse, hres⟩
      · cases h
    · cases h
  · rintro ⟨h0, h1, rest, rfl, hident, hparse, hres⟩
    simp only [headersFormat, hident, hparse, hres, if_true]

/-- In an Active state HEADERS is its body (R198). -/
theorem exec_headers_of_active {s : State} (h : Active s) (hdrs : List Buffer) :
    exec (.headers hdrs) s = headersBody hdrs s :=
  guarded_of_active h.1 h.2

/-- A buffer that begins with the tag identifies the stream, whatever follows (R58). -/
theorem identOk_append (tag : Vector Byte 8) (more : Buffer) :
    identOk tag (tag.toList ++ more) = true := by
  have htake : (tag.toList ++ more).take 8 = tag.toList := by
    rw [List.take_append_of_le_length (by simp), List.take_of_length_le (by simp)]
  simp [identOk, htake]

/-- Settles O23: the tag, the parse and the resolver all pass, so HEADERS stores and offers the format. -/
theorem headersProposeTheFormat : Obligations.HeadersProposeTheFormat := by
  intro s more b others fmt hactive hslice hwidth
  have hformat := headersFormat_eq_some_iff.2 ⟨_, b, others, rfl, identOk_append s.params.identTag more,
    parseStreamInfo_of_slice hslice, resolveFormat_slice s.params.layout hwidth⟩
  simp only [exec_headers_of_active hactive, headersBody, hformat]
  rfl

/-- Settles O24: a proposed format needs each of the five checks, so any failure proposes none. -/
theorem headersFailQuietly : Obligations.HeadersFailQuietly := by
  intro s hdrs hactive hfail
  have hnone : headersFormat s.params hdrs = none := by
    rw [Option.eq_none_iff_forall_ne_some]
    rintro ⟨d, f⟩ hformat
    obtain ⟨h0, h1, rest, rfl, hident, hparse, hres⟩ := headersFormat_eq_some_iff.1 hformat
    obtain ⟨hslice, rfl⟩ := (parseStreamInfo_ok_iff h1 d).1 hparse
    obtain ⟨-, fmt, hwidth, -⟩ := (resolveFormat_ok_iff _ _ f).1 hres
    simp only [identOk, Bool.and_eq_true, decide_eq_true_eq, beq_iff_eq] at hident
    obtain ⟨hlen, htag⟩ := hident
    rcases hfail with hfew | hshort | hwrong | hno | hother
    · simp at hfew
    · exact absurd hlen (by simpa using hshort)
    · exact hwrong htag
    · exact hno hslice
    · exact hother fmt hwidth
  simp only [exec_headers_of_active hactive, headersBody, hnone]
  rfl

end Sys2Proof.Machine
end

section
/-! SUPPORT. The repacker's output by its bytes (45_sample_repacker.md R161 to R176): NARROW, the four
REPACK forms, and the frames outside their domain. -/

namespace Sys2Proof.Machine

/-- R166: the bytes of a repacked frame with at least one array. -/
theorem repack_isOutputOf {f : Frame} (hc : 1 ≤ f.length) (e : Endian) (fmt : SampleFormat) :
    IsOutputOf e fmt f (repack e fmt f) := by
  intro n hshape
  refine ⟨?_, fun i hi c hlt j hj => ?_⟩
  · rw [repack, narrow_length, interleave_length hc hshape]
  · exact narrow_getElem? e fmt _ _ _ (interleave_getElem? hc hshape i c hi hlt) j hj

/-- The REPACK row of a format repacks in that format, under the domain's test. -/
theorem exec_repackRow (fmt : SampleFormat) (f : Frame) (s : State) :
    exec (repackRow fmt f) s = onFrame f s (.bytes (repack s.params.outEndian fmt f)) := by
  cases fmt <;> rfl

/-- In its domain a REPACK form reports the repacked frame; no other field changes. -/
theorem exec_repackRow_of_hasShape {f : Frame} {n : Nat} (hc : 1 ≤ f.length)
    (h : HasShape f.length n f) (fmt : SampleFormat) (s : State) :
    exec (repackRow fmt f) s =
      .next { s with answer := some (.result (.bytes (repack s.params.outEndian fmt f))) } :=
  (exec_repackRow fmt f s).trans (onFrame_of_hasShape hc h s _)

/-- An operation on a frame refuses what is outside the domain (R176, U7). -/
theorem onFrame_of_ragged {f : Frame} (h : f = [] ∨ ∀ n, ¬ HasShape f.length n f) (s : State)
    (r : OpResult) : onFrame f s r = .refused .frameNotRectangular := by
  have hrect : ¬ Frame.isRectangular f = true := by
    rw [isRectangular_iff]
    rintro ⟨hc, n, hshape⟩
    rcases h with rfl | hragged
    · simp at hc
    · exact hragged n hshape
  rw [onFrame, if_neg hrect]

/-- Settles O36: the five rows refuse by the one test of the domain. -/
theorem raggedFramesAreRefused : Obligations.RaggedFramesAreRefused := by
  intro s f h
  have hrepack (fmt : SampleFormat) :
      exec (repackRow fmt f) s = .refused .frameNotRectangular :=
    (exec_repackRow fmt f s).trans (onFrame_of_ragged h s _)
  exact ⟨onFrame_of_ragged h s _, hrepack .s8, hrepack .s16, hrepack .s24in32, hrepack .s32⟩

/-- NARROW reports the containers of its values; no other field changes. -/
theorem exec_narrow (fmt : SampleFormat) (v : List Sample) (s : State) :
    exec (.narrow fmt v) s =
      .next { s with answer := some (.result (.bytes (narrow s.params.outEndian fmt v))) } := rfl

theorem getElem?_eq_some_getD {α : Type} {l : List α} {k : Nat} (h : k < l.length) (a : α) :
    l[k]? = some (l.getD k a) := by
  simp [h]

/-- Settles O37: NARROW's containers, one after the other. -/
theorem narrowWritesContiguousContainers : Obligations.NarrowWritesContiguousContainers := by
  intro s fmt v
  refine ⟨_, exec_narrow fmt v s, narrow_length _ fmt v, fun k hk j hj => ?_⟩
  exact narrow_getElem? _ fmt v k _ (getElem?_eq_some_getD hk _) j hj

/-- Settles O38: each form reports its repacked frame, whose bytes are R166's. -/
theorem repackFormsLayOutTheFrame : Obligations.RepackFormsLayOutTheFrame := by
  intro s f n hc hshape
  have hform (fmt : SampleFormat) : ∃ out, IsOutputOf s.params.outEndian fmt f out ∧
      exec (repackRow fmt f) s = .next { s with answer := some (.result (.bytes out)) } :=
    ⟨_, repack_isOutputOf hc _ fmt, exec_repackRow_of_hasShape hc hshape fmt s⟩
  exact ⟨hform .s8, hform .s16, hform .s24in32, hform .s32⟩

/-- R165: the 24-bit and the 32-bit containers are both the whole pattern (D33). -/
theorem narrow_s24in32 (e : Endian) (v : List Sample) : narrow e .s24in32 v = narrow e .s32 v := rfl

/-- Settles O41: both rows write the containers of `narrow`. -/
theorem twentyFourBitIsWrittenAsThirtyTwo : Obligations.TwentyFourBitIsWrittenAsThirtyTwo := by
  intro s f v
  constructor
  · change exec (repackRow .s24in32 f) s = exec (repackRow .s32 f) s
    rw [exec_repackRow, exec_repackRow, repack, narrow_s24in32, repack]
  · rw [exec_narrow, exec_narrow, narrow_s24in32]

end Sys2Proof.Machine
end

section
/-! SUPPORT. Reading containers back (00_scope.md R7, 20_memory.md R35): a container's bytes give its number
in either byte order, and the signed number is the sample's residue. -/

namespace Sys2Proof.Machine

/-- Bytes read with the least significant last are their reverse read with the least significant first. -/
theorem containerNat_big_reverse (bs : Buffer) :
    containerNat .big bs.reverse = containerNat .little bs := by
  simp only [containerNat, List.foldl_reverse]
  congr 1
  funext b acc
  exact Nat.add_comm _ _

/-- The low `n` bytes of a pattern, the least significant first, hold its residue modulo `2^(8n)`. -/
theorem containerNat_little_low_bytes {w : Nat} (v : BitVec w) (n : Nat) :
    containerNat .little ((List.range n).map fun j => v.extractLsb' (8 * j) 8) =
      v.toNat % 2 ^ (8 * n) := by
  induction n generalizing v with
  | zero => simp [containerNat, Nat.mod_one]
  | succ n ih =>
    have htail : (fun j => v.extractLsb' (8 * j) 8) ∘ Nat.succ =
        fun j => (v >>> 8).extractLsb' (8 * j) 8 := by
      funext j
      apply BitVec.eq_of_toNat_eq
      simp only [Function.comp_apply, BitVec.extractLsb'_toNat, BitVec.toNat_ushiftRight,
        ← Nat.shiftRight_add]
      congr 2
      omega
    have hrest := ih (v >>> 8)
    simp only [containerNat] at hrest
    simp only [containerNat, List.range_succ_eq_map, List.map_cons, List.map_map, List.foldr_cons,
      htail, hrest]
    rw [BitVec.toNat_ushiftRight, Nat.shiftRight_eq_div_pow, BitVec.extractLsb'_toNat]
    rw [show 8 * (n + 1) = 8 + 8 * n by omega, Nat.pow_add, Nat.mod_mul]
    simp

/-- A container's bytes hold its number, in either byte order. -/
theorem containerNat_containerBytes (e : Endian) {n : Nat} (v : BitVec (8 * n)) :
    containerNat e (containerBytes e v) = v.toNat := by
  have hlow := containerNat_little_low_bytes v n
  rw [Nat.mod_eq_of_lt v.isLt] at hlow
  cases e with
  | little => exact hlow
  | big => exact (containerNat_big_reverse _).trans hlow

/-- `as_sN` of a pattern is its two's complement number (G5). -/
theorem asSigned_toNat {w : Nat} (v : BitVec w) (hw : 0 < w) : asSigned w v.toNat = v.toInt := by
  obtain ⟨k, rfl⟩ : ∃ k, w = k + 1 := ⟨w - 1, by omega⟩
  rw [asSigned, BitVec.toInt_eq_toNat_cond, Nat.add_sub_cancel]
  have hpow : 2 ^ (k + 1) = 2 * 2 ^ k := by rw [Nat.pow_succ, Nat.mul_comm]
  by_cases hlow : v.toNat < 2 ^ k
  · rw [if_pos hlow, if_pos (by omega)]
  · rw [if_neg hlow, if_neg (by omega)]
    push_cast
    rfl

/-- R164: a narrowed sample is the sample's residue modulo `2^(8W)`, in the signed range. -/
theorem narrowSample_toInt (fmt : SampleFormat) (x : Sample) :
    (narrowSample fmt x).toInt = x.toInt.bmod (2 ^ (8 * containerWidth fmt)) := by
  have hlow (w : Nat) (hw : w ≤ 32) : (x.setWidth w).toInt = x.toInt.bmod (2 ^ w) := by
    rw [BitVec.toInt_setWidth, BitVec.toInt_eq_toNat_bmod,
      Int.bmod_bmod_of_dvd (Nat.pow_dvd_pow 2 hw)]
  have hwhole : x.toInt = x.toInt.bmod (2 ^ 32) := by simpa using hlow 32 le_rfl
  cases fmt with
  | s8 => exact hlow 8 (by omega)
  | s16 => exact hlow 16 (by omega)
  | s24in32 => exact hwhole
  | s32 => exact hwhole

/-- Container `k` of a NARROW reads back as value `k`'s residue, in the signed range. -/
theorem readBack_narrow (e : Endian) (fmt : SampleFormat) (v : List Sample) (k : Nat) (x : Sample)
    (hk : v[k]? = some x) :
    readBack e fmt (narrow e fmt v) k = x.toInt.bmod (2 ^ (8 * containerWidth fmt)) := by
  have hwidth : 0 < 8 * containerWidth fmt := by cases fmt <;> decide
  rw [readBack, narrow_container e fmt v k x hk, containerNat_containerBytes, asSigned_toNat _ hwidth,
    narrowSample_toInt]

/-- A sample that fits its container is its own residue (R172). -/
theorem bmod_of_fits {fmt : SampleFormat} {x : Sample} (h : FitsContainer fmt x) :
    x.toInt.bmod (2 ^ (8 * containerWidth fmt)) = x.toInt := by
  obtain ⟨hlow, hhigh⟩ := h
  have hwidth : 8 * containerWidth fmt = 8 * containerWidth fmt - 1 + 1 := by cases fmt <;> rfl
  generalize 8 * containerWidth fmt - 1 = k at hlow hhigh hwidth
  rw [hwidth]
  apply Int.bmod_eq_of_le_mul_two <;> push_cast <;> rw [pow_succ] <;> omega

/-- Settles O40: every container reads back as its value's residue. -/
theorem narrowWrapsAndNeverSaturates : Obligations.NarrowWrapsAndNeverSaturates := by
  intro s fmt v
  refine ⟨_, exec_narrow fmt v s, fun k hk => ?_⟩
  exact readBack_narrow _ fmt v k _ (getElem?_eq_some_getD hk _)

/-- A sample the shape places in a frame is a member of one of its arrays. -/
theorem sample_mem_of_hasShape {f : Frame} {c n i k : Nat} (h : HasShape c n f) (hi : i < n)
    (hk : k < c) : ∃ a ∈ f, (f.getD k []).getD i 0#32 ∈ a := by
  obtain ⟨hlen, hall⟩ := h
  have hkf : k < f.length := hlen ▸ hk
  refine ⟨f[k], List.getElem_mem hkf, ?_⟩
  have hik : i < f[k].length := by rw [hall _ (List.getElem_mem hkf)]; exact hi
  simp [hkf, hik]

/-- Settles O39: container `i*C + c` is the residue of channel `c`'s sample `i`, which fits. -/
theorem repackedSamplesReadBack : Obligations.RepackedSamplesReadBack := by
  intro s fmt f n hc hshape hfits
  refine ⟨_, exec_repackRow_of_hasShape hc hshape fmt s, fun i hi c hlt => ?_⟩
  obtain ⟨a, ha, hx⟩ := sample_mem_of_hasShape hshape hi hlt
  rw [repack, readBack_narrow _ fmt _ _ _ (interleave_getElem? hc hshape i c hi hlt)]
  exact bmod_of_fits (hfits a ha _ hx)

end Sys2Proof.Machine
end

section
/-! SUPPORT. DECODE_FRAME once a descriptor and a format are stored (44_frame_decoder.md R144 to R147): one
lemma per ending of the decoder, and what the operation on its own and PUSH_FRAME make of each. -/

namespace Sys2Proof.Machine

/-! ### The decoder's endings -/

/-- With both stream fields stored the decoder runs under the descriptor. -/
theorem decodeFrame_of_stored {s : State} {d : StreamDescriptor} {f : OutputFormat}
    (hd : s.desc = some d) (hf : s.fmt = some f) (b : Buffer) :
    decodeFrame s b = .ok (decodeUnder s.params d b) := by
  rw [decodeFrame, hf, hd]

/-- R144: in range the decoder asks the primitive. -/
theorem decodeUnder_of_inRange {d : StreamDescriptor} (h : DescriptorInRange d) (ps : Params)
    (b : Buffer) : decodeUnder ps d b = callPrimitive ps d.channelCount.toNat b := by
  obtain ⟨hcount, fmt, hwidth⟩ := (inRange_iff d).1 h
  have hformat : widthFormat d.bitsPerSample ≠ none :=
    fun hnone => (widthFormat_none_iff _).1 hnone fmt hwidth
  rw [decodeUnder, if_neg (by omega), if_neg hformat]

/-- The reason of a descriptor out of range, the count tested first (R144). -/
def rangeReason (d : StreamDescriptor) : AbortReason :=
  if 1 ≤ d.channelCount.toNat ∧ d.channelCount.toNat ≤ 8 then .widthRange else .channelRange

/-- R144: out of range the decoder aborts, whatever the primitive would answer. -/
theorem decodeUnder_of_not_inRange {d : StreamDescriptor} (h : ¬ DescriptorInRange d) (ps : Params)
    (b : Buffer) : decodeUnder ps d b = .abort (rangeReason d) := by
  rw [decodeUnder, rangeReason]
  by_cases hcount : 1 ≤ d.channelCount.toNat ∧ d.channelCount.toNat ≤ 8
  · have hformat : widthFormat d.bitsPerSample = none :=
      (widthFormat_none_iff _).2 fun fmt hwidth => h ((inRange_iff d).2 ⟨hcount, fmt, hwidth⟩)
    rw [if_neg (by omega), if_pos hformat, if_pos hcount]
  · rw [if_pos (by omega), if_neg hcount]

/-- With both stream fields stored and a descriptor in range the decoder is the primitive's call. -/
theorem decodeFrame_of_inRange {s : State} {d : StreamDescriptor} {f : OutputFormat}
    (hd : s.desc = some d) (hf : s.fmt = some f) (hrange : DescriptorInRange d) (b : Buffer) :
    decodeFrame s b = .ok (callPrimitive s.params d.channelCount.toNat b) := by
  rw [decodeFrame_of_stored hd hf, decodeUnder_of_inRange hrange]

section

variable {ps : Params} {c : Nat} {b : Buffer} {fr : Frame}

/-- R145: NoFrame is no output. -/
theorem callPrimitive_of_noFrame (h : primitive ps b c = .noFrame) :
    callPrimitive ps c b = .done none := by
  rw [callPrimitive, h]

/-- R145: Fail is FrameDecodeError with its detail. -/
theorem callPrimitive_of_fail {detail : Detail} (h : primitive ps b c = .fail detail) :
    callPrimitive ps c b = .raise .frameDecodeError (some detail) := by
  rw [callPrimitive, h]

/-- R146: the consumption check comes before the shape check. -/
theorem callPrimitive_of_mismatch {k : Nat} (h : primitive ps b c = .frame fr k)
    (hk : k ≠ b.length) : callPrimitive ps c b = .abort .lengthMismatch := by
  simp only [callPrimitive, h, if_pos hk]

/-- R147: a frame of the right shape is the result as it is. -/
theorem callPrimitive_of_shape {n : Nat} (h : primitive ps b c = .frame fr b.length)
    (hshape : HasShape c n fr) : callPrimitive ps c b = .done (some fr) := by
  have hok : frameShapeOk c fr = true := (frameShapeOk_iff c fr).2 ⟨n, hshape⟩
  simp [callPrimitive, h, hok]

/-- R147: a frame of no such shape aborts (D25). -/
theorem callPrimitive_of_no_shape (h : primitive ps b c = .frame fr b.length)
    (hno : ∀ n, ¬ HasShape c n fr) : callPrimitive ps c b = .abort .frameShape := by
  have hbad : frameShapeOk c fr = false := by
    rw [Bool.eq_false_iff, ne_eq, frameShapeOk_iff]
    exact fun ⟨n, hshape⟩ => hno n hshape
  simp [callPrimitive, h, hbad]

end

/-! ### The operation on its own -/

section

variable {s : State} {b : Buffer}

/-- A normal result of the decoder is reported by DECODE_FRAME; no other field changes. -/
theorem exec_decodeFrame_of_done {r : Option Frame} (h : decodeFrame s b = .ok (.done r)) :
    exec (.decodeFrame b) s = .next { s with answer := some (.result (frameResult r)) } := by
  change execDecodeFrame b s = _
  rw [execDecodeFrame, h]
  rfl

/-- An abort of the decoder is reported by DECODE_FRAME and latched (logs 10, 27). -/
theorem exec_decodeFrame_of_abort {a : AbortReason} (h : decodeFrame s b = .ok (.abort a)) :
    exec (.decodeFrame b) s =
      .next { s with aborted := some a, answer := some (.result (.abort a)) } := by
  change execDecodeFrame b s = _
  rw [execDecodeFrame, h]
  rfl

/-! ### PUSH_FRAME -/

/-- No frame is handled without output (R195). -/
theorem pushFrame_of_noFrame (h : decodeFrame s b = .ok (.done none)) :
    pushFrame b s = .next { s with answer := some (okNoOutput (some .audioFrame) 1 []) } := by
  rw [pushFrame, h]
  rfl

/-- A frame is repacked in the state's format and put out (R195). -/
theorem pushFrame_of_frame {fr : Frame} {f : OutputFormat}
    (h : decodeFrame s b = .ok (.done (some fr))) (hf : s.fmt = some f) :
    pushFrame b s = .next { s with
      answer := some (outputAnswer (repack s.params.outEndian f.sampleFormat fr)) } := by
  have hout : pushOutput fr s =
      .next (s.respond (.output (repack s.params.outEndian f.sampleFormat fr))) := by
    rw [pushOutput, hf]
  rw [pushFrame, h]
  exact hout

/-- An abort of the decoder is latched and answered (R232). -/
theorem pushFrame_of_abort {a : AbortReason} (h : decodeFrame s b = .ok (.abort a)) :
    pushFrame b s = .next { s with aborted := some a, answer := some (abortAnswer a) } := by
  rw [pushFrame, h]
  rfl

end

/-! ### The obligations -/

/-- Settles O22: the decoder stops at the absent descriptor, and the operation with it. -/
theorem formatWithoutDescriptorFaults : Obligations.FormatWithoutDescriptorFaults := by
  intro s b f hf hd
  have hfault : decodeFrame s b = .error .descriptorAbsent := by rw [decodeFrame, hf, hd]
  change execDecodeFrame b s = _
  rw [execDecodeFrame, hfault]

/-- Settles O34: the operation reports the ending the primitive's answer has. -/
theorem decodeFrameFollowsThePrimitive : Obligations.DecodeFrameFollowsThePrimitive := by
  intro s b d f hd hf hrange
  have hcall := decodeFrame_of_inRange hd hf hrange b
  refine ⟨fun hnone => ?noFrame, fun detail hfail => ?fail, fun fr k hframe =>
    ⟨fun hk => ?mismatch, fun hk hshape => ?shape, fun hk hno => ?noShape⟩⟩
  case noFrame =>
    rw [callPrimitive_of_noFrame hnone] at hcall
    exact exec_decodeFrame_of_done hcall
  case fail =>
    rw [callPrimitive_of_fail hfail] at hcall
    exact exec_decodeFrame_of_raise hcall
  case mismatch =>
    rw [callPrimitive_of_mismatch hframe hk] at hcall
    exact exec_decodeFrame_of_abort hcall
  case shape =>
    subst hk
    obtain ⟨n, hshape⟩ := hshape
    rw [callPrimitive_of_shape hframe hshape] at hcall
    exact exec_decodeFrame_of_done hcall
  case noShape =>
    subst hk
    rw [callPrimitive_of_no_shape hframe hno] at hcall
    exact exec_decodeFrame_of_abort hcall

/-- Settles O16: both rows answer what the primitive's call ends with, neither of which aborts. -/
theorem primitiveWithoutFrameLeavesTheState : Obligations.PrimitiveWithoutFrameLeavesTheState := by
  intro s b d f hactive hwf hd hf hrange
  have hcall := decodeFrame_of_inRange hd hf hrange b
  refine ⟨fun hnone => ?noFrame, fun detail hfail => ?fail⟩ <;>
    refine push_and_row_of_route .audioFrame hactive hwf ?_
  case noFrame =>
    rw [callPrimitive_of_noFrame hnone] at hcall
    exact pushFrame_of_noFrame hcall
  case fail =>
    rw [callPrimitive_of_fail hfail] at hcall
    exact pushFrame_of_raise hcall

/-- Settles O17: the frame passes the checks, and its output is the repacked frame. -/
theorem decodedFrameGivesOneOutputBuffer : Obligations.DecodedFrameGivesOneOutputBuffer := by
  intro s b d f fr n hactive hwf hd hf hrange hframe hshape
  have hcall := decodeFrame_of_inRange hd hf hrange b
  rw [callPrimitive_of_shape hframe hshape] at hcall
  obtain ⟨hlen, hall⟩ := hshape
  have hc : 1 ≤ fr.length := hlen ▸ hrange.1.1
  have hout := repack_isOutputOf hc s.params.outEndian f.sampleFormat
  refine ⟨_, hout, hlen ▸ (hout n ⟨rfl, hall⟩).1, ?_⟩
  exact push_and_row_of_route .audioFrame hactive hwf (pushFrame_of_frame hcall hf)

/-- Settles O18: the primitive's call aborts at the consumption check. -/
theorem lengthMismatchAborts : Obligations.LengthMismatchAborts := by
  intro s b d f fr k hactive hwf hd hf hrange hframe hk
  have hcall := decodeFrame_of_inRange hd hf hrange b
  rw [callPrimitive_of_mismatch hframe hk] at hcall
  exact push_and_row_of_route .audioFrame hactive hwf (pushFrame_of_abort hcall)

/-- Settles O19: the primitive's call aborts at the shape check. -/
theorem wrongFrameShapeAborts : Obligations.WrongFrameShapeAborts := by
  intro s b d f fr hactive hwf hd hf hrange hframe hno
  have hcall := decodeFrame_of_inRange hd hf hrange b
  rw [callPrimitive_of_no_shape hframe hno] at hcall
  exact push_and_row_of_route .audioFrame hactive hwf (pushFrame_of_abort hcall)

/-- Settles O20: the decoder aborts by `rangeReason` before it asks the primitive. -/
theorem descriptorOutOfRangeAborts : Obligations.DescriptorOutOfRangeAborts := by
  intro s b d f hd hf hrange a
  have hcall := decodeFrame_of_stored hd hf b
  rw [decodeUnder_of_not_inRange hrange] at hcall
  refine ⟨exec_decodeFrame_of_abort hcall, fun hactive hwf => ?_⟩
  exact (push_and_row_of_route .audioFrame hactive hwf (pushFrame_of_abort hcall)).1

/-- The state the PUSH of a slice with a supported width leaves (R194). -/
def State.negotiated (s : State) (hdr : Buffer) (fmt : SampleFormat) : State :=
  let f := assembledFormat s.params.layout (sliceDescriptor hdr) fmt
  (s.storeFormat (sliceDescriptor hdr) f).respond (.quietOk (some .metadataHeader) 1 [.negotiate f])

/-- A step that takes the PUSH of a slice with a supported width leaves the negotiated state. -/
theorem step_of_push_slice {s : State} {hdr : Buffer} {rest : List Packet} {fmt : SampleFormat}
    (hpend : s.pending = .command 2#2 [hdr] :: rest) (hactive : Active s) (hslice : IsStreamInfo hdr)
    (hwidth : (sliceWidth hdr).toNat = formatBits fmt) :
    step s = .next ((s.taken rest).negotiated hdr fmt) := by
  obtain ⟨hpush, -⟩ :=
    headerPushStoresDescriptorAndFormat (s.taken rest) hdr fmt hactive hslice hwidth
  exact (step_of_decode (i := .push hdr) hpend rfl).trans hpush

/-- Settles O52: the first step stores the descriptor and the format, and the second is O17 in the state
it leaves. -/
theorem headerIsInForceForTheNextCommand : Obligations.HeaderIsInForceForTheNextCommand := by
  intro s hdr b rest fmt fr n hactive hslice hwidth hwf hpend hprim hshape
  have hrange : DescriptorInRange (sliceDescriptor hdr) :=
    inRange_of_resolved (resolveFormat_slice s.params.layout hwidth)
  have hfirst := step_of_push_slice hpend hactive hslice hwidth
  obtain ⟨out, hout, -, hpush, -⟩ := decodedFrameGivesOneOutputBuffer
    (((s.taken (.command 2#2 [b] :: rest)).negotiated hdr fmt).taken rest) b
    (sliceDescriptor hdr) (assembledFormat s.params.layout (sliceDescriptor hdr) fmt) fr n
    hactive hwf rfl rfl hrange hprim hshape
  refine ⟨out, hout, ?_⟩
  have hsecond := (step_of_decode (i := .push b) rfl rfl).trans hpush
  rw [run_succ_of_step hfirst, run_succ_of_step hsecond]
  rfl

end Sys2Proof.Machine
end

section
/-! SUPPORT. What exec changes of the state, field group by field group: the list outstanding and the
parameters, the session bit, the stream fields, the latch. Each is said once for the guarded operations, from
`guarded_next` and the routes' inversion lemmas, and once for exec. -/

namespace Sys2Proof.Machine

/-- What the guards' two answers and the body's answer in an Active state satisfy, a guarded operation's
next state satisfies. -/
theorem guarded_next {P : State → Prop} {s t : State} {body : State → Result}
    (h : guarded s body = .next t) (hresp : ∀ r, P (s.respond r))
    (hbody : Active s → body s = .next t → P t) : P t := by
  rcases guarded_cases (s := s) body with ⟨-, hg⟩ | ⟨a, -, -, hg⟩ | ⟨hsession, hlatch, hg⟩
  · rw [hg] at h; cases h; exact hresp _
  · rw [hg] at h; cases h; exact hresp _
  · exact hbody ⟨hsession, hlatch⟩ (hg ▸ h)

/-! ### The list outstanding, the parameters and the session bit -/

/-- The fields no operation but START and STOP writes. -/
structure SameInterface (s t : State) : Prop where
  pending : t.pending = s.pending
  params : t.params = s.params
  session : t.session = s.session

theorem PushEffect.sameInterface {s t : State} (h : PushEffect s t) : SameInterface s t := by
  cases h with
  | quiet _ h | error _ _ _ h | abort _ h | output _ h | header _ _ _ h =>
    subst h
    exact ⟨rfl, rfl, rfl⟩

theorem exec_guarded_sameInterface {i : Instr} {s t : State} (hi : i.isGuarded = true)
    (h : exec i s = .next t) : SameInterface s t := by
  cases exec_guarded hi h with
  | noSession _ h => subst h; exact ⟨rfl, rfl, rfl⟩
  | latched _ _ _ h => subst h; exact ⟨rfl, rfl, rfl⟩
  | push _ _ h => exact h.sameInterface
  | headers _ hs _ h =>
    rcases headersBody_cases h with rfl | ⟨d, f, -, rfl⟩ <;> exact ⟨rfl, rfl, rfl⟩

theorem exec_internal_sameInterface {i : Instr} {s t : State} (hi : i.isInternal = true)
    (h : exec i s = .next t) : SameInterface s t := by
  rcases exec_internal hi h with ⟨r, rfl⟩ | ⟨a, rfl, -⟩ <;> exact ⟨rfl, rfl, rfl⟩

/-- START and STOP apart, every operation leaves the interface fields. -/
theorem exec_sameInterface {i : Instr} {s t : State} (hstart : i ≠ .start) (hstop : i ≠ .stop)
    (h : exec i s = .next t) : SameInterface s t := by
  rcases kind_cases i with rfl | rfl | hi | hi
  · exact absurd rfl hstart
  · exact absurd rfl hstop
  · exact exec_guarded_sameInterface hi h
  · exact exec_internal_sameInterface hi h

/-- No operation touches the list outstanding or the parameters (R261). -/
theorem exec_pending_params {i : Instr} {s t : State} (h : exec i s = .next t) :
    t.pending = s.pending ∧ t.params = s.params := by
  by_cases hstart : i = .start
  · subst hstart; cases h; exact ⟨rfl, rfl⟩
  by_cases hstop : i = .stop
  · subst hstop; cases h; exact ⟨rfl, rfl⟩
  obtain ⟨hpending, hparams, -⟩ := exec_sameInterface hstart hstop h
  exact ⟨hpending, hparams⟩

/-- Settles O46: a step is exec of one operation at the state with its packet taken, or nothing. -/
theorem stepNeverWritesTheParameters : Obligations.StepNeverWritesTheParameters := by
  intro s t h
  rcases step_next_cases h with rfl | ⟨p, rest, i, -, hexec, -⟩
  · rfl
  · exact (exec_pending_params hexec).2

/-! ### The stream fields -/

/-- The descriptor and the format are as they were. -/
abbrev KeepsStream (s t : State) : Prop := t.desc = s.desc ∧ t.fmt = s.fmt

theorem pushIgnored_keepsStream {c : BufClass} {s t : State} (h : pushIgnored c s = .next t) :
    KeepsStream s t := by
  cases h
  exact ⟨rfl, rfl⟩

theorem pushFrame_keepsStream {b : Buffer} {s t : State} (h : pushFrame b s = .next t) :
    KeepsStream s t := by
  rcases pushFrame_cases h with rfl | ⟨e, info, rfl⟩ | ⟨a, -, rfl⟩ | ⟨out, rfl⟩ <;> exact ⟨rfl, rfl⟩

/-- A PUSH of no MetadataHeader leaves the stream fields (R13 item 5). -/
theorem pushBody_keepsStream {b : Buffer} {s t : State}
    (hclass : classify s.params.marker b ≠ .ok .metadataHeader) (h : pushBody b s = .next t) :
    KeepsStream s t := by
  cases hc : classify s.params.marker b with
  | error a =>
    rw [pushBody_of_abort hc] at h
    cases h
    exact ⟨rfl, rfl⟩
  | ok c =>
    rw [pushBody_of_class hc] at h
    cases c with
    | streamMarker | otherMetadataHeader => exact pushIgnored_keepsStream h
    | metadataHeader => exact absurd hc hclass
    | audioFrame => exact pushFrame_keepsStream h

/-- What is no START, STOP, HEADERS, MetadataHeader row or PUSH of a MetadataHeader leaves the stream
fields (R13 item 5). -/
theorem exec_keepsStream {i : Instr} {s t : State} (hstart : i ≠ .start) (hstop : i ≠ .stop)
    (hheaders : ∀ hs, i ≠ .headers hs) (hrow : ∀ b, i ≠ .classMetadataHeader b)
    (hpush : ∀ b, i = .push b → classify s.params.marker b ≠ .ok .metadataHeader)
    (h : exec i s = .next t) : KeepsStream s t := by
  have hresp (r : Response) : KeepsStream s (s.respond r) := ⟨rfl, rfl⟩
  rcases kind_cases i with hi | hi | hi | hi
  · exact absurd hi hstart
  · exact absurd hi hstop
  · cases i with
    | push b =>
      exact guarded_next (P := KeepsStream s) h hresp fun _ => pushBody_keepsStream (hpush b rfl)
    | headers hs => exact absurd rfl (hheaders hs)
    | classMetadataHeader b => exact absurd rfl (hrow b)
    | classStreamMarker b | classOtherMetadataHeader b =>
      exact guarded_next (P := KeepsStream s) h hresp fun _ => pushIgnored_keepsStream
    | classAudioFrame b =>
      exact guarded_next (P := KeepsStream s) h hresp fun _ => pushFrame_keepsStream
    | _ => cases hi
  · rcases exec_internal hi h with ⟨r, rfl⟩ | ⟨a, rfl, -⟩ <;> exact ⟨rfl, rfl⟩

/-- Settles O47: the three frames, each under the premises it needs. -/
theorem onlyHeadersChangeDescriptorAndFormat : Obligations.OnlyHeadersChangeDescriptorAndFormat := by
  intro s t i h
  obtain ⟨hpending, hparams⟩ := exec_pending_params h
  refine ⟨hpending, hparams, fun hstart hstop => ⟨(exec_sameInterface hstart hstop h).session, ?_⟩⟩
  exact fun hheaders hrow hpush => exec_keepsStream hstart hstop hheaders hrow hpush h

/-- Everything an operation can do to the stream fields: empty them, keep them, or store a descriptor with
the format it resolves to, in a session. -/
inductive StreamEffect (s t : State) : Prop
  | emptied (hd : t.desc = none) (hf : t.fmt = none)
  | kept (hs : t.session = s.session) (h : KeepsStream s t)
  | stored (d : StreamDescriptor) (f : OutputFormat) (hr : resolveFormat s.params.layout d = .ok f)
      (hs : t.session = true) (hd : t.desc = some d) (hf : t.fmt = some f)

theorem PushEffect.streamEffect {s t : State} (hactive : Active s) (h : PushEffect s t) :
    StreamEffect s t := by
  cases h with
  | quiet _ h | error _ _ _ h | abort _ h | output _ h => subst h; exact .kept rfl ⟨rfl, rfl⟩
  | header d f hr h => subst h; exact .stored d f hr hactive.1 rfl rfl

theorem exec_streamEffect {i : Instr} {s t : State} (h : exec i s = .next t) : StreamEffect s t := by
  rcases kind_cases i with rfl | rfl | hi | hi
  · cases h; exact .emptied rfl rfl
  · cases h; exact .emptied rfl rfl
  · cases exec_guarded hi h with
    | noSession _ h => subst h; exact .kept rfl ⟨rfl, rfl⟩
    | latched _ _ _ h => subst h; exact .kept rfl ⟨rfl, rfl⟩
    | push hactive _ h => exact h.streamEffect hactive
    | headers hactive hs _ h =>
      rcases headersBody_cases h with rfl | ⟨d, f, hr, rfl⟩
      · exact .kept rfl ⟨rfl, rfl⟩
      · exact .stored d f hr hactive.1 rfl rfl
  · rcases exec_internal hi h with ⟨r, rfl⟩ | ⟨a, rfl, -⟩ <;> exact .kept rfl ⟨rfl, rfl⟩

/-! ### The latch -/

/-- Everything an operation can do to the latch: keep it, clear it, or set it to ShortBuffer or to what the
decoder aborts with. -/
inductive LatchEffect (s t : State) : Prop
  | kept (h : t.aborted = s.aborted)
  | cleared (h : t.aborted = none)
  | short (h : t.aborted = some .shortBuffer)
  | decoder (b : Buffer) (a : AbortReason) (hdec : decodeFrame s b = .ok (.abort a))
      (h : t.aborted = some a)

theorem pushIgnored_latchEffect {c : BufClass} {s t : State} (h : pushIgnored c s = .next t) :
    LatchEffect s t := by
  cases h
  exact .kept rfl

theorem pushHeader_latchEffect {b : Buffer} {s t : State} (h : pushHeader b s = .next t) :
    LatchEffect s t := by
  rcases pushHeader_cases h with ⟨e, rfl⟩ | ⟨d, f, -, rfl⟩ <;> exact .kept rfl

theorem pushFrame_latchEffect {b : Buffer} {s t : State} (h : pushFrame b s = .next t) :
    LatchEffect s t := by
  rcases pushFrame_cases h with rfl | ⟨e, info, rfl⟩ | ⟨a, hdec, rfl⟩ | ⟨out, rfl⟩
  · exact .kept rfl
  · exact .kept rfl
  · exact .decoder b a hdec rfl
  · exact .kept rfl

theorem pushBody_latchEffect {b : Buffer} {s t : State} (h : pushBody b s = .next t) :
    LatchEffect s t := by
  cases hc : classify s.params.marker b with
  | error a =>
    obtain ⟨-, rfl⟩ := (classify_error_iff _ b a).1 hc
    rw [pushBody_of_abort hc] at h
    cases h
    exact .short rfl
  | ok c =>
    rw [pushBody_of_class hc] at h
    cases c with
    | streamMarker | otherMetadataHeader => exact pushIgnored_latchEffect h
    | metadataHeader => exact pushHeader_latchEffect h
    | audioFrame => exact pushFrame_latchEffect h

theorem headersBody_latchEffect {hdrs : List Buffer} {s t : State}
    (h : headersBody hdrs s = .next t) : LatchEffect s t := by
  rcases headersBody_cases h with rfl | ⟨d, f, -, rfl⟩ <;> exact .kept rfl

theorem exec_latchEffect {i : Instr} {s t : State} (h : exec i s = .next t) : LatchEffect s t := by
  have hresp (r : Response) : LatchEffect s (s.respond r) := .kept rfl
  rcases kind_cases i with rfl | rfl | hi | hi
  · cases h; exact .cleared rfl
  · cases h; exact .cleared rfl
  · cases i with
    | push b => exact guarded_next (P := LatchEffect s) h hresp fun _ => pushBody_latchEffect
    | headers hs => exact guarded_next (P := LatchEffect s) h hresp fun _ => headersBody_latchEffect
    | classMetadataHeader b =>
      exact guarded_next (P := LatchEffect s) h hresp fun _ => pushHeader_latchEffect
    | classStreamMarker b | classOtherMetadataHeader b =>
      exact guarded_next (P := LatchEffect s) h hresp fun _ => pushIgnored_latchEffect
    | classAudioFrame b =>
      exact guarded_next (P := LatchEffect s) h hresp fun _ => pushFrame_latchEffect
    | _ => cases hi
  · rcases exec_internal hi h with ⟨r, rfl⟩ | ⟨a, rfl, ⟨b, -, hclass⟩ | ⟨b, -, hdec⟩⟩
    · exact .kept rfl
    · obtain ⟨-, rfl⟩ := (classify_error_iff _ b a).1 hclass
      exact .short rfl
    · exact .decoder b a hdec rfl

/-- Settles O48: an internal operation reports, or latches the abort it reports, which only CLASSIFY and
DECODE_FRAME do. -/
theorem internalOperationsChangeOnlyTheirAnswer :
    Obligations.InternalOperationsChangeOnlyTheirAnswer := by
  intro s t i hi h
  rcases exec_internal hi h with ⟨r, rfl⟩ | ⟨a, rfl, hcause⟩
  · exact ⟨rfl, ⟨r, rfl, .inl rfl⟩, fun _ _ => rfl⟩
  · refine ⟨rfl, ⟨.abort a, rfl, .inr ⟨a, rfl, rfl⟩⟩, fun hclassify hdecode => ?_⟩
    rcases hcause with ⟨b, hb, -⟩ | ⟨b, hb, -⟩
    · exact absurd hb (hclassify b)
    · exact absurd hb (hdecode b)

end Sys2Proof.Machine
end

section
/-! SUPPORT. The invariants of 10_state.md R13: they hold at reset and every step keeps them, and what
follows from them. -/

namespace Sys2Proof.Machine

/-- The invariant reads no list outstanding. -/
theorem streamInv_taken {s : State} (h : StreamInv s) (rest : List Packet) :
    StreamInv (s.taken rest) :=
  ⟨h.idle_empty, h.both_or_neither, h.format_derived, h.in_range⟩

/-- Empty stream fields meet R13 items 1 to 4 in every state. -/
theorem streamInv_of_empty {s : State} (hd : s.desc = none) (hf : s.fmt = none) : StreamInv s where
  idle_empty _ := ⟨hd, hf⟩
  both_or_neither := iff_of_true hd hf
  format_derived d f hd' := by rw [hd] at hd'; cases hd'
  in_range d hd' := by rw [hd] at hd'; cases hd'

/-- A descriptor stored in a session with the format it resolves to meets R13 items 1 to 4. -/
theorem streamInv_of_stored {s : State} {d : StreamDescriptor} {f : OutputFormat}
    (hs : s.session = true) (hd : s.desc = some d) (hf : s.fmt = some f)
    (hr : resolveFormat s.params.layout d = .ok f) : StreamInv s where
  idle_empty hidle := by rw [hs] at hidle; cases hidle
  both_or_neither := by rw [hd, hf]; exact iff_of_false nofun nofun
  format_derived d' f' hd' hf' := by rw [hd] at hd'; rw [hf] at hf'; cases hd'; cases hf'; exact hr
  in_range d' hd' := by rw [hd] at hd'; cases hd'; exact inRange_of_resolved hr

/-- Every operation keeps R13 items 1 (for the stream fields) to 4. -/
theorem exec_streamInv {i : Instr} {s t : State} (hinv : StreamInv s) (h : exec i s = .next t) :
    StreamInv t := by
  obtain ⟨-, hparams⟩ := exec_pending_params h
  cases exec_streamEffect h with
  | emptied hd hf => exact streamInv_of_empty hd hf
  | kept hs hkept =>
    obtain ⟨hd, hf⟩ := hkept
    refine ⟨?_, ?_, ?_, ?_⟩ <;> simp only [hs, hd, hf, hparams]
    exacts [hinv.idle_empty, hinv.both_or_neither, hinv.format_derived, hinv.in_range]
  | stored d f hr hs hd hf => exact streamInv_of_stored hs hd hf (hparams ▸ hr)

/-- Settles O43: a step is exec of one operation at the state with its packet taken, or nothing. -/
theorem stepKeepsStreamInvariant : Obligations.StepKeepsStreamInvariant := by
  intro s t hinv h
  rcases step_next_cases h with rfl | ⟨p, rest, i, -, hexec, -⟩
  · exact hinv
  · exact exec_streamInv (streamInv_taken hinv rest) hexec

/-- A command packet decodes to no internal operation: those are encoded for the test bench (log 2). -/
theorem not_internal_of_decode_command {m : Vector Byte 4} {p : Packet} {i : Instr}
    (hp : p.isCommand = true) (h : decode m p = .ok i) : i.isInternal = false := by
  obtain rfl := encode_of_decode m p i h
  cases i with
  | start | stop | push | headers => rfl
  | classStreamMarker | classMetadataHeader | classAudioFrame | classOtherMetadataHeader => rfl
  | _ => cases hp

/-- What is no internal operation keeps a reason from being latched outside a session: START clears the
latch, STOP too, and the rest answer NO_SESSION there. -/
theorem exec_idle_unaborted {i : Instr} {s t : State} (hi : i.isInternal = false)
    (hinv : s.session = false → s.aborted = none) (h : exec i s = .next t) :
    t.session = false → t.aborted = none := by
  intro hidle
  rcases kind_cases i with rfl | rfl | hguarded | hinternal
  · cases h; rfl
  · cases h; rfl
  · have hsession : s.session = false := (exec_guarded_sameInterface hguarded h).session ▸ hidle
    rw [outsideASessionNothingChanges s i hguarded hsession] at h
    cases h
    exact hinv hsession
  · rw [hi] at hinternal
    cases hinternal

/-- Settles O44: the stream fields are O43's, and a host command is no internal operation. -/
theorem hostCommandsKeepSessionInvariant : Obligations.HostCommandsKeepSessionInvariant := by
  intro s t p rest hinv hp hcommand h
  refine ⟨stepKeepsStreamInvariant s t hinv.toStreamInv h, ?_⟩
  rcases step_next_cases h with rfl | ⟨p', rest', i, hpend, hexec, hcause⟩
  · exact hinv.idle_unaborted
  · have hi : i.isInternal = false := by
      rcases hcause with hdec | rfl
      · rw [hp] at hpend
        cases hpend
        exact not_internal_of_decode_command hcommand hdec
      · rfl
    exact exec_idle_unaborted (s := s.taken rest') hi hinv.idle_unaborted hexec

/-- Settles O49: the decoder aborts for a range only under a descriptor out of range. -/
theorem rangeAbortsAreUnreachable : Obligations.RangeAbortsAreUnreachable := by
  intro s t hinv h
  have hrange (a : AbortReason) (ha : a = .channelRange ∨ a = .widthRange)
      (ht : t.aborted = some a) : s.aborted = some a := by
    rcases step_next_cases h with rfl | ⟨p, rest, i, -, hexec, -⟩
    · exact ht
    cases exec_latchEffect hexec with
    | kept hkept => exact hkept ▸ ht
    | cleared hnone => rw [hnone] at ht; cases ht
    | short hshort =>
      rw [hshort] at ht
      rcases ha with rfl | rfl <;> cases ht
    | decoder b a' hdec hlatch =>
      rw [hlatch] at ht
      cases ht
      rcases decodeFrame_abort hdec with hother | ⟨d, hd, hout, -⟩
      · rcases ha with rfl | rfl <;> simp at hother
      · exact absurd (hinv.in_range d hd) hout
  exact ⟨hrange _ (.inl rfl), hrange _ (.inr rfl)⟩

/-! ### Every command returns -/

theorem pushHeader_total (b : Buffer) (s : State) : ∃ t, pushHeader b s = .next t := by
  unfold pushHeader
  split
  · exact ⟨_, rfl⟩
  · split <;> exact ⟨_, rfl⟩

/-- PUSH_FRAME completes where the two stream fields agree: the decoder does (log 12). -/
theorem pushFrame_total {s : State} (h : s.desc = none ↔ s.fmt = none) (b : Buffer) :
    ∃ t, pushFrame b s = .next t := by
  obtain ⟨r, hr⟩ := decodeFrame_total h b
  rw [pushFrame, hr]
  match r with
  | .raise e info => exact ⟨_, rfl⟩
  | .abort a => exact ⟨_, rfl⟩
  | .done none => exact ⟨_, rfl⟩
  | .done (some f) =>
    simp only [pushOutput]
    split <;> exact ⟨_, rfl⟩

theorem pushBody_total {s : State} (h : s.desc = none ↔ s.fmt = none) (b : Buffer) :
    ∃ t, pushBody b s = .next t := by
  cases hc : classify s.params.marker b with
  | error a => exact ⟨_, pushBody_of_abort hc⟩
  | ok c =>
    rw [pushBody_of_class hc]
    cases c with
    | streamMarker | otherMetadataHeader => exact ⟨_, rfl⟩
    | metadataHeader => exact pushHeader_total b s
    | audioFrame => exact pushFrame_total h b

theorem headersBody_total (hdrs : List Buffer) (s : State) : ∃ t, headersBody hdrs s = .next t := by
  unfold headersBody
  split <;> exact ⟨_, rfl⟩

theorem guarded_total {s : State} {body : State → Result} (h : ∃ t, body s = .next t) :
    ∃ t, guarded s body = .next t := by
  rcases guarded_cases (s := s) body with ⟨-, hg⟩ | ⟨a, -, -, hg⟩ | ⟨-, -, hg⟩
  · exact ⟨_, hg⟩
  · exact ⟨_, hg⟩
  · exact hg ▸ h

/-- Settles O45: each guarded operation's body completes, the frame's by R13 item 2. -/
theorem everyHostCommandReturns : Obligations.EveryHostCommandReturns := by
  rintro s i hinv (hi | rfl | rfl)
  · cases i with
    | push b => exact guarded_total (pushBody_total hinv.both_or_neither b)
    | headers hs => exact guarded_total (headersBody_total hs s)
    | classMetadataHeader b => exact guarded_total (pushHeader_total b s)
    | classAudioFrame b => exact guarded_total (pushFrame_total hinv.both_or_neither b)
    | classStreamMarker b | classOtherMetadataHeader b => exact guarded_total ⟨_, rfl⟩
    | _ => cases hi
  · exact ⟨_, exec_start s⟩
  · exact ⟨_, exec_stop s⟩

end Sys2Proof.Machine
end

section
/-! SUPPORT. What a response holds (30_encoding.md R63, 46_session_commands.md R197, R199): the fields that
go together, and the count. -/

namespace Sys2Proof

/-- The operations that take a buffer of the stream: PUSH and the class rows. -/
abbrev Instr.IsPush (i : Instr) : Prop := i ≠ .start ∧ i ≠ .stop ∧ ∀ hs, i ≠ .headers hs

end Sys2Proof

namespace Sys2Proof.Machine

/-- The fields of a response that go together: an output exactly with OK_OUTPUT, at most one event and only
with OK_NO_OUTPUT, an error exactly with ERROR, a reason exactly with ABORT. -/
def Response.Consistent (r : Response) : Prop :=
  (r.out.isSome = true ↔ r.status = .okOutput) ∧ r.events.length ≤ 1 ∧
    (r.events ≠ [] → r.status = .okNoOutput) ∧
    (r.status = .error ↔ r.error.isSome = true) ∧
    (r.status = .abort ↔ r.abortReason.isSome = true)

theorem Response.quietOk_consistent (cls : Option BufClass) (consumed : Nat) {events : List Event}
    (h : events.length ≤ 1) : (Response.quietOk cls consumed events).Consistent := by
  simpa [Response.Consistent, Response.quietOk] using h

theorem Response.output_consistent (out : Buffer) : (Response.output out).Consistent := by
  simp [Response.Consistent, Response.output]

theorem Response.raised_consistent (cls : BufClass) (e : ErrorName) (info : Option Detail) :
    (Response.raised cls e info).Consistent := by
  simp [Response.Consistent, Response.raised]

theorem Response.aborting_consistent (a : AbortReason) : (Response.aborting a).Consistent := by
  simp [Response.Consistent, Response.aborting]

theorem Response.noSession_consistent : Response.noSession.Consistent := by
  simp [Response.Consistent, Response.noSession]

/-- The buffers a response to `i` counts (D21): one, or none where `i` takes no buffer of the stream or an
abort or the missing session stopped it. -/
def Response.CountsFor (i : Instr) (r : Response) : Prop :=
  (r.consumed = 1 ∧ i.IsPush ∧ r.status ≠ .abort ∧ r.status ≠ .noSession) ∨
    (r.consumed = 0 ∧ (¬ i.IsPush ∨ r.status = .abort ∨ r.status = .noSession))

theorem Response.consumed_eq_one_iff {i : Instr} {r : Response} (h : r.CountsFor i) :
    r.consumed = 1 ↔ i.IsPush ∧ r.status ≠ .abort ∧ r.status ≠ .noSession := by
  rcases h with ⟨hone, hwhy⟩ | ⟨hzero, hwhy⟩
  · exact iff_of_true hone hwhy
  · refine iff_of_false (by omega) ?_
    rintro ⟨hpush, habort, hnone⟩
    rcases hwhy with hno | ha | hn
    · exact hno hpush
    · exact habort ha
    · exact hnone hn

theorem Response.consumed_le_one {i : Instr} {r : Response} (h : r.CountsFor i) :
    r.consumed ≤ 1 := by
  rcases h with ⟨hone, -⟩ | ⟨hzero, -⟩ <;> omega

/-- The state answers `i` with a response whose fields go together and whose count is right. -/
def Answers (i : Instr) (t : State) : Prop :=
  ∃ r, t.answer = some (.response r) ∧ r.Consistent ∧ r.CountsFor i

theorem answers_quietOk {i : Instr} {s : State} {events : List Event} (hi : ¬ i.IsPush)
    (h : events.length ≤ 1) : Answers i (s.respond (.quietOk none 0 events)) :=
  ⟨_, rfl, Response.quietOk_consistent none 0 h, .inr ⟨rfl, .inl hi⟩⟩

/-- A PUSH past its guards counts its buffer, unless it aborts. -/
theorem PushEffect.answers {i : Instr} {s t : State} (hi : i.IsPush) (h : PushEffect s t) :
    Answers i t := by
  cases h with
  | quiet c h =>
    subst h
    exact ⟨_, rfl, Response.quietOk_consistent _ 1 (by simp), .inl ⟨rfl, hi, nofun, nofun⟩⟩
  | error c e info h =>
    subst h
    exact ⟨_, rfl, Response.raised_consistent c e info, .inl ⟨rfl, hi, nofun, nofun⟩⟩
  | abort a h =>
    subst h
    exact ⟨_, rfl, Response.aborting_consistent a, .inr ⟨rfl, .inr (.inl rfl)⟩⟩
  | output out h =>
    subst h
    exact ⟨_, rfl, Response.output_consistent out, .inl ⟨rfl, hi, nofun, nofun⟩⟩
  | header d f _ h =>
    subst h
    exact ⟨_, rfl, Response.quietOk_consistent _ 1 (by simp), .inl ⟨rfl, hi, nofun, nofun⟩⟩

/-- Every operation but the internal ones answers so. -/
theorem exec_answers {i : Instr} {s t : State} (hi : i.isInternal = false)
    (h : exec i s = .next t) : Answers i t := by
  rcases kind_cases i with rfl | rfl | hguarded | hinternal
  · cases h; exact answers_quietOk (fun hp => hp.1 rfl) (by simp)
  · cases h; exact answers_quietOk (fun hp => hp.2.1 rfl) (by simp)
  · cases exec_guarded hguarded h with
    | noSession _ h =>
      subst h
      exact ⟨_, rfl, Response.noSession_consistent, .inr ⟨rfl, .inr (.inr rfl)⟩⟩
    | latched a _ _ h =>
      subst h
      exact ⟨_, rfl, Response.aborting_consistent a, .inr ⟨rfl, .inr (.inl rfl)⟩⟩
    | push _ hheaders h =>
      have hpush : i.IsPush :=
        ⟨(by rintro rfl; cases hguarded), (by rintro rfl; cases hguarded), hheaders⟩
      exact h.answers hpush
    | headers _ hs hhs h =>
      have hpush : ¬ i.IsPush := fun hp => hp.2.2 hs hhs
      rcases headersBody_cases h with rfl | ⟨d, f, -, rfl⟩
      · exact answers_quietOk hpush (by simp)
      · exact answers_quietOk hpush (by simp)
  · rw [hi] at hinternal
    cases hinternal

/-- Settles O50: the one response of the next state is consistent and its count is that of its kind. -/
theorem responsesHaveAtMostOneOutputOrEvent : Obligations.ResponsesHaveAtMostOneOutputOrEvent := by
  intro s t i r h ht hi
  obtain ⟨r', ht', ⟨hout, hlen, hevents, herror, habort⟩, hcount⟩ := exec_answers hi h
  rw [ht] at ht'
  cases ht'
  exact ⟨hout, hlen, hevents, herror, habort, Response.consumed_eq_one_iff hcount,
    Response.consumed_le_one hcount⟩

end Sys2Proof.Machine
end

section
/-! SUPPORT. The session's condition (60_exceptions.md R240) by the two fields it reads, and the register
view of the state (10_state.md R22). -/

namespace Sys2Proof.Machine

/-- The three conditions, each with the fields that make it. -/
theorem condition_cases (s : State) :
    (s.session = false ∧ s.condition = .idle) ∨
      (∃ a, s.session = true ∧ s.aborted = some a ∧ s.condition = .aborted) ∨
      (Active s ∧ s.condition = .active) := by
  cases hsession : s.session with
  | false => exact .inl ⟨rfl, if_pos hsession⟩
  | true =>
    cases hlatch : s.aborted with
    | none =>
      exact .inr (.inr ⟨⟨hsession, hlatch⟩, by simp [State.condition, State.isAborted, hsession, hlatch]⟩)
    | some a =>
      exact .inr (.inl ⟨a, rfl, rfl, by simp [State.condition, State.isAborted, hsession, hlatch]⟩)

/-- In a session the condition is Active or Aborted. -/
theorem condition_of_session {s : State} (h : s.session = true) :
    s.condition = .active ∨ s.condition = .aborted := by
  rcases condition_cases s with ⟨hidle, -⟩ | ⟨a, -, -, hc⟩ | ⟨-, hc⟩
  · rw [h] at hidle; cases hidle
  · exact .inr hc
  · exact .inl hc

/-- Settles O51: START and STOP set the bit and clear the latch; the guards answer in Idle and Aborted; and
in Active the session bit stays. -/
theorem conditionMovesAsStated : Obligations.ConditionMovesAsStated := by
  intro s t i h
  refine ⟨by rintro rfl; cases h; rfl, by rintro rfl; cases h; rfl, fun hi => ?_⟩
  rcases condition_cases s with ⟨hsession, hidle⟩ | ⟨a, hsession, hlatch, haborted⟩ |
    ⟨⟨hsession, -⟩, hactive⟩
  · rw [outsideASessionNothingChanges s i hi hsession] at h
    cases h
    exact ⟨fun _ => ⟨hidle, rfl⟩, by simp [hidle], by simp [hidle]⟩
  · rw [latchedAbortAnswersAndChangesNothing s i a hi hsession hlatch] at h
    cases h
    exact ⟨by simp [haborted], fun _ => ⟨haborted, rfl⟩, by simp [haborted]⟩
  · have ht := condition_of_session ((exec_guarded_sameInterface hi h).session.trans hsession)
    exact ⟨by simp [hactive], by simp [hactive], fun _ => ht⟩

/-- The reason's code in STATUS, 0 while none is latched (R22). -/
def latchCode : Option AbortReason → BitVec 3
  | none => 0#3
  | some a => a.code

/-- The four fields of a six-bit STATUS word. -/
theorem status_fields (code : BitVec 3) (aborted negotiated session : Bool) :
    let w : BitVec 6 :=
      code ++ BitVec.ofBool aborted ++ BitVec.ofBool negotiated ++ BitVec.ofBool session
    w.getLsbD 0 = session ∧ w.getLsbD 1 = negotiated ∧ w.getLsbD 2 = aborted ∧
      w.extractLsb' 3 3 = code := by
  revert code aborted negotiated session
  decide

/-- Settles O53: the three bits and the code are STATUS's fields. -/
theorem statusRegisterShowsTheState : Obligations.StatusRegisterShowsTheState := by
  intro s
  obtain ⟨hsession, hnegotiated, haborted, hcode⟩ :=
    status_fields (latchCode s.aborted) s.isAborted s.isNegotiated s.session
  refine ⟨hsession, hnegotiated, haborted, fun hnone => ?_, fun a ha => ?_⟩
  · exact hcode.trans (by rw [hnone, latchCode])
  · exact hcode.trans (by rw [ha, latchCode])

/-- Past its lowest nibble a word's nibbles are those of the part above. -/
theorem extractLsb'_append_nibble {w : Nat} (x : BitVec w) (y : BitVec 4) (k : Nat) :
    (x ++ y).extractLsb' (4 * (k + 1)) 4 = x.extractLsb' (4 * k) 4 :=
  BitVec.extractLsb'_append_eq_of_le (by omega)

/-- LAYOUTREG's word holds its eight nibbles at their places. -/
theorem nibble_of_eight (p : Nat → BitVec 4) {k : Nat} (hk : k < 8) :
    (p 7 ++ p 6 ++ p 5 ++ p 4 ++ p 3 ++ p 2 ++ p 1 ++ p 0).extractLsb' (4 * k) 4 = p k := by
  rcases k with _ | _ | _ | _ | _ | _ | _ | _ | k
  case succ => omega
  all_goals simp only [extractLsb'_append_nibble, Nat.mul_zero, BitVec.extractLsb'_append_eq_right,
    BitVec.extractLsb'_eq_self]

/-- FMT's two fields. -/
theorem fmt_fields (c : BitVec 2) :
    (1#1 ++ c : BitVec 3).extractLsb' 0 2 = c ∧ (1#1 ++ c : BitVec 3).getLsbD 2 = true := by
  revert c
  decide

/-- Settles O54: each register is a word of its fields, and reading one needs the record it shows. -/
theorem descriptorRegistersShowTheState : Obligations.DescriptorRegistersShowTheState := by
  intro s
  refine ⟨fun hf => ?unnegotiated, fun d f hd hf => ?negotiated, fun f hf hd => ?noDescriptor⟩
  case unnegotiated => simp only [State.readDesc, State.readFmt, State.readLayoutReg, hf, and_self]
  case negotiated =>
    obtain ⟨hcode, hone⟩ := fmt_fields f.sampleFormat.code
    refine ⟨d.bits, 1#1 ++ f.sampleFormat.code, _, by simp only [State.readDesc, hf, hd],
      by simp only [State.readFmt, hf], by simp only [State.readLayoutReg, hf]; rfl,
      bits_sampleRate d, bits_channelCount d, bits_bitsPerSample d, hcode, hone, fun k hk => ?_⟩
    exact nibble_of_eight (fun k => positionCode (layoutPosition f.channelLayout k)) hk
  case noDescriptor => simp only [State.readDesc, hf, hd]

end Sys2Proof.Machine
end

section
/-! SUPPORT. Reset (10_state.md R27) and LAYOUT (41_channel_layout.md R100 to R103). -/

namespace Sys2Proof

/-- An entry of the reset LAYOUT, by its row and index. -/
theorem Config.layout_get (r k : Fin 8) : Config.layout[r][k] = Config.layoutAt r k := by
  have hrow : Config.layout[r] = Config.layoutRow r := by fin_cases r <;> rfl
  rw [hrow]
  fin_cases k <;> rfl

theorem Position.ofIndex_ne_invalid (n : Fin 10) : Position.ofIndex n ≠ .invalid := by
  revert n
  decide

/-- R102 of the reset LAYOUT. -/
theorem Config.layoutAt_eq_invalid_iff (row k : Nat) :
    Config.layoutAt row k = .invalid ↔ row < k := by
  unfold Config.layoutAt
  split_ifs with hpast hstereo hfirst <;> simp [hpast, Position.ofIndex_ne_invalid]

/-- The reset LAYOUT meets R102 and R103, whatever its open entries are (log 22). -/
theorem Config.layout_ok : Config.layout.Ok := by
  refine ⟨fun r k => ?_, ?_, ?_⟩ <;> rw [Config.layout_get]
  · exact Config.layoutAt_eq_invalid_iff r k
  · rfl
  · rfl

end Sys2Proof

namespace Sys2Proof.Machine

/-- Settles O6: S's reset values, and the open LAYOUT's two rules. -/
theorem resetIsIdleAndEmpty : Obligations.ResetIsIdleAndEmpty :=
  ⟨rfl, rfl, rfl, rfl, rfl, Config.layout_ok⟩

/-- Settles O42: the stream fields are empty and no reason is latched. -/
theorem sessionInvariantHoldsAtReset : Obligations.SessionInvariantHoldsAtReset :=
  ⟨streamInv_of_empty rfl rfl, fun _ => rfl⟩

/-- In its domain LAYOUT_LOOKUP reports the entries R100 names; no other field changes. -/
theorem exec_layoutLookup_of_range {n : BitVec 4} (h : 1 ≤ n.toNat ∧ n.toNat ≤ 8) (s : State) :
    exec (.layoutLookup n) s = .next { s with
      answer := some (.result (.layout (layoutEntries s.params.layout n.toNat))) } := by
  change execLayoutLookup n s = _
  rw [execLayoutLookup, layoutLookup_of_range _ _ h]
  rfl

/-- Outside its domain LAYOUT_LOOKUP is refused (U6). -/
theorem exec_layoutLookup_outside {n : BitVec 4} (h : ¬ (1 ≤ n.toNat ∧ n.toNat ≤ 8)) (s : State) :
    exec (.layoutLookup n) s = .refused .layoutOutsideDomain := by
  change execLayoutLookup n s = _
  rw [execLayoutLookup, layoutLookup_none _ _ h]

section

variable (t : LayoutTable) (r : Fin 8)

theorem layoutEntries_length : (layoutEntries t (r + 1)).length = r + 1 := by
  rw [layoutEntries_eq t r _ rfl, List.length_take, Vector.length_toList]
  omega

theorem layoutEntries_getElem? {k : Fin 8} (hk : k ≤ r) :
    (layoutEntries t (r + 1))[k.val]? = some t[r][k] := by
  rw [layoutEntries_eq t r _ rfl, List.getElem?_take_of_lt (by omega)]
  simp

/-- Under R102 no entry of a row's own count is Invalid. -/
theorem invalid_not_mem_layoutEntries (hok : t.Ok) :
    Position.invalid ∉ layoutEntries t (r + 1) := by
  obtain ⟨hinvalid, -⟩ := hok
  intro hmem
  obtain ⟨k, hk, hget⟩ := List.getElem_of_mem hmem
  rw [layoutEntries_length] at hk
  have hk8 : k < 8 := by omega
  have hentry := layoutEntries_getElem? t r (k := ⟨k, hk8⟩) (by rw [Fin.le_def]; simp only; omega)
  rw [List.getElem?_eq_getElem (by rw [layoutEntries_length]; exact hk), hget] at hentry
  have hlt := (hinvalid r ⟨k, hk8⟩).1 (Option.some.inj hentry).symm
  rw [Fin.lt_def] at hlt
  simp only at hlt
  omega

end

/-- Under R103 the two-channel row is FrontLeft, FrontRight. -/
theorem layoutEntries_two {t : LayoutTable} (hok : t.Ok) :
    layoutEntries t 2 = [.frontLeft, .frontRight] := by
  obtain ⟨-, hleft, hright⟩ := hok
  have hlen : (layoutEntries t 2).length = 2 := layoutEntries_length t 1
  have hfirst : (layoutEntries t 2)[0]? = some .frontLeft :=
    hleft ▸ layoutEntries_getElem? t 1 (k := 0) (by decide)
  have hsecond : (layoutEntries t 2)[1]? = some .frontRight :=
    hright ▸ layoutEntries_getElem? t 1 (k := 1) (by decide)
  obtain ⟨a, b, hab⟩ := List.length_eq_two.1 hlen
  rw [hab] at hfirst hsecond ⊢
  cases hfirst
  cases hsecond
  rfl

/-- Settles O31: the reported entries are the row's, by position; outside 1 to 8 the refusal. -/
theorem layoutLookupGivesTheRow : Obligations.LayoutLookupGivesTheRow := by
  intro s n
  refine ⟨fun hrange => ?_, fun hout => exec_layoutLookup_outside (by omega) s⟩
  refine ⟨_, exec_layoutLookup_of_range hrange s, ?_⟩
  obtain ⟨r, hr⟩ : ∃ r : Fin 8, r.val + 1 = n.toNat := ⟨⟨n.toNat - 1, by omega⟩, by simp only; omega⟩
  rw [← hr]
  refine ⟨layoutEntries_length _ r, fun r' k hr' hk => ?_, fun hok => ⟨?_, fun htwo => ?_⟩⟩
  · obtain rfl : r' = r := by ext; omega
    exact layoutEntries_getElem? _ r' (by rw [Fin.le_def]; omega)
  · exact invalid_not_mem_layoutEntries _ r hok
  · rw [hr, htwo]
    exact layoutEntries_two hok

end Sys2Proof.Machine
end
